-- ==== Sys2Proof/Word.lean ====
section
/-! DEFINITION. The word types of the core: every quantity it handles is an unsigned byte, a 16-bit checksum or a
32-bit pattern (00_scope.md section 5.1, 40_checksum.md R115). -/

namespace Sys2Proof

/-- `u8`: an unsigned byte, 0..255. -/
abbrev Byte := BitVec 8

/-- `u16`: a checksum. -/
abbrev U16 := BitVec 16

/-- `u32`: a 32-bit pattern, the model's `f32` (42_payload_decoder.md R165: a pattern, never a number). -/
abbrev U32 := BitVec 32

end Sys2Proof
end

