-- ==== Sys2Proof/Machine/Bytes.lean ====
section
/-! DEFINITION. Byte order (00_scope.md section 5.2, 20_memory.md R53): every multi-byte quantity on the wire is
little-endian. `q ++ p` is the concatenation `{q, p}` of 00_scope.md section 5.1. -/

namespace Sys2Proof.Machine

/-- `le16(v)`: `[v[7:0], v[15:8]]`. -/
def le16 (v : U16) : List Byte := [v.extractLsb' 0 8, v.extractLsb' 8 8]

/-- `unle16([p, q])`: `p | (q << 8)`. -/
def unle16 (p q : Byte) : U16 := (q ++ p : BitVec 16)

/-- `le32(v)`: `[v[7:0], v[15:8], v[23:16], v[31:24]]`. -/
def le32 (v : U32) : List Byte :=
  [v.extractLsb' 0 8, v.extractLsb' 8 8, v.extractLsb' 16 8, v.extractLsb' 24 8]

/-- `unle32([p, q, r, s])`: `p | (q << 8) | (r << 16) | (s << 24)`. -/
def unle32 (p q r s : Byte) : U32 := (s ++ r ++ q ++ p : BitVec 32)

end Sys2Proof.Machine
end

