-- ==== Sys2Proof/Config.lean ====
section
/-! DEFINITION. What is fixed while the core runs: the constants of R3, the shape of a registry (R8, R167) and the
values the spec leaves open. The registry of THIS hardware is in Machine/Registry.lean. -/

namespace Sys2Proof

/-- The sync byte value, `0xFF` (00_scope.md R3). -/
def syncByte : Byte := 0xFF#8

/-- `CKLEN`, the two bytes of the checksum field (00_scope.md R3). -/
def cksumLen : Nat := 2

/-- `PBUF_SIZE`: 255 bytes, index 0..254 (00_scope.md section 4, 10_state.md R26). -/
def pbufSize : Nat := 255

/-- The kind-specific fields of a decoded message (10_state.md R31). `pose` is the one kind of this hardware.
`bytes` is for further registry entries, whose record the spec leaves to the entry (R167). DESIGN CHOICE, log 11. -/
inductive Fields where
  | pose (x y theta : U32)
  | bytes (content : List Byte)
deriving DecidableEq, Repr

/-- A registry entry: the id, the one content length it accepts, and a total pure function on a content of exactly
that length (42_payload_decoder.md R160, R163, R167). -/
structure Entry where
  id : Byte
  contentLen : Nat
  decode : (c : List Byte) → c.length = contentLen → Fields

/-- The parameters of an implementation: the registry (R8) and `YIELD_ON_UNKNOWN` (00_scope.md section 4, D7). -/
structure Config where
  registry : List Entry
  yieldOnUnknown : Bool

/-- What R167 asks of a registry: no id registered twice, every content length framable. -/
def Config.RegistryOk (cfg : Config) : Prop :=
  (cfg.registry.map Entry.id).Nodup ∧ ∀ e ∈ cfg.registry, e.contentLen ≤ 253

/-- The free values of the model: what a register holds where the spec says "unspecified" (93_implementation_defined.md
U1, U2). It has no body, so no proof can see a value of it. DESIGN CHOICE, logs 1 and 2. -/
opaque Config.freeByte : Nat → Byte

end Sys2Proof
end

