-- ==== Sys2Proof/Machine/Memory.lean ====
section
/-! DEFINITION. The payload buffer as a list of cells in one canonical form: addresses strictly rising, all below 255.
An unlisted address has NO value (DESIGN CHOICE, log 3: the spec gives `PBUF` no value before GETPAY writes it). -/

namespace Sys2Proof.Machine

abbrev Memory := List Host.Cell

/-- What an unlisted address reads as: no value (10_state.md R33). DESIGN CHOICE, log 3. -/
def Memory.unlisted (_a : Nat) : Option Byte := none

/-- The canonical form. No entry can equal what an unlisted address reads as, since that is no value. -/
abbrev Memory.wf (m : Memory) : Prop :=
  m.Pairwise (fun x y => x.1 < y.1) ∧ ∀ c ∈ m, c.1 < pbufSize

/-- One byte. -/
def Memory.read : Memory → Nat → Option Byte
  | [], a => Memory.unlisted a
  | (k, v) :: rest, a => if k = a then some v else Memory.read rest a

/-- One byte written, keeping the canonical form. -/
def Memory.write : Memory → Nat → Byte → Memory
  | [], a, v => [(a, v)]
  | (k, w) :: rest, a, v =>
    if a < k then (a, v) :: (k, w) :: rest
    else if a = k then (a, v) :: rest
    else (k, w) :: Memory.write rest a v

/-- `[addr..addr+n)` read in order; no value if one of the bytes has none. -/
def Memory.readBytes (m : Memory) (a : Nat) : Nat → Option (List Byte)
  | 0 => some []
  | n + 1 =>
    match Memory.read m a, Memory.readBytes m (a + 1) n with
    | some b, some bs => some (b :: bs)
    | _, _ => none

/-- `[addr..addr+|bs|) <- bs`. -/
def Memory.writeBytes (m : Memory) (a : Nat) : List Byte → Memory
  | [] => m
  | b :: bs => Memory.writeBytes (Memory.write m a b) (a + 1) bs

end Sys2Proof.Machine
end

