-- ==== Sys2Proof/Machine/State.lean ====
section
/-! DEFINITION. The state of the whole system as plain data: the core's tuple (10_state.md R20), the transport's
queue (R30), what the core hands to the host (R32, R89), and what the host and the transport do next. -/

namespace Sys2Proof.Machine

/-- `ST`, the five states of 10_state.md R21. -/
inductive AsmState where
  | idle
  | sawFirstSync
  | sawSecondSync
  | haveMsgId
  | haveMsgLen
deriving DecidableEq, Repr

/-- The causes of 10_state.md R32 and 60_exceptions.md R180. -/
inductive Cause where
  | notEnough
  | cksum
  | badLen
  | unknownId
  | contentLen
deriving DecidableEq, Repr

/-- `PollResult` of 10_state.md R32: `Message(kind, fields)` or `Nothing(cause, info)`, with `info` the id for
`UNKNOWN_ID` and empty otherwise. -/
inductive PollResult where
  | message (kind : Byte) (fields : Fields)
  | nothing (cause : Cause) (info : Option Byte)
deriving DecidableEq, Repr

/-- What moves next. `feed` is the transport (R51); `call` is the host's two-bit request `{rst, poll_req}` (R91);
`ckop` is the checksum unit's stand-alone interface (R89). `assemble` and `dispatch` run ONE assembler step, or ONE
message-level outcome, outside a POLL: the model's own, DESIGN CHOICE, log 7. -/
inductive Input where
  | feed (bytes : List Byte)
  | call (csel : BitVec 2)
  | ckop (op : BitVec 2) (data : Byte)
  | assemble
  | dispatch
deriving DecidableEq, Repr

/-- The state. -/
structure State where
  /-- `ST` (R21). -/
  st : AsmState
  /-- `NEED` (R22). -/
  need : Byte
  /-- `ID` (R23). -/
  msgId : Byte
  /-- `LEN` (R24). -/
  msgLen : Byte
  /-- `PBUF` (R26). -/
  pbuf : Memory
  /-- `A` (R27). -/
  a : Byte
  /-- `B` (R27). -/
  b : Byte
  /-- `RXQ` (R30), head first; the transport's. -/
  rxq : List Byte
  /-- The POLL results handed to the host (R32), oldest first. Log 6. -/
  results : List PollResult
  /-- The values handed out on `ck_sum` (R89), oldest first. Log 6. -/
  sums : List U16
  /-- What the host and the transport do next, oldest first. Log 5. -/
  inputs : List Input
  /-- What the transport appends during POLLs: one chunk before each sampling of `RxAvail` (R58, D12). Log 4. -/
  arrivals : List (List Byte)
  /-- Which free value comes next. The model's own field, log 2. -/
  freeCtr : Nat
deriving DecidableEq, Repr

/-- Why the machine stops with a fault. Both are safe: the model stops where the spec gives no value. -/
inductive Fault where
  /-- An access outside `PBUF[0..255)` (R57). Raised by `readPbuf` and `writePbuf`; safe. -/
  | pbufRange
  /-- A read of a byte of `PBUF` that nothing has written (R33: no value). Raised by `readPbuf`; safe. -/
  | pbufUnwritten
deriving DecidableEq, Repr

/-- Why an operation is refused. All are safe: the model stops. -/
inductive Refusal where
  /-- An instruction that has no meaning yet: raised by exec's refused arms only; safe. -/
  | notModelled (mnemonic : String)
  /-- A STEP or FRAME operation performed where its precondition does not hold (R34, R138, U3: "refuse"): raised by the
  meanings of those two formats; safe. Log 8. -/
  | notSelected
  /-- `ck_op = 0b11` (R90, U4: "refuse"): raised by step; safe. -/
  | reservedCkOp
  /-- A POLL that takes more steps than there are bytes (R144, R217, U13): raised by `pollLoop` when its bound runs out,
  which no state does; safe. Log 4. -/
  | pollUnending
deriving DecidableEq, Repr

/-- The machine right after reset (R33, R210): `ST = Idle`, `NEED = 1`. `ID`, `LEN`, `A`, `B` are unspecified there and
hold an arbitrary draw, `Config.freeByte 0` to `3` (DESIGN CHOICE, log 1); `PBUF` has no value (log 3); nothing has
arrived, nothing is asked for, nothing was handed out (logs 4, 5, 6). -/
def State.reset : State where
  st := .idle
  need := 1#8
  msgId := Config.freeByte 0
  msgLen := Config.freeByte 1
  pbuf := []
  a := Config.freeByte 2
  b := Config.freeByte 3
  rxq := []
  results := []
  sums := []
  inputs := []
  arrivals := []
  freeCtr := 4

end Sys2Proof.Machine
end

