-- ==== Sys2Proof/Machine/Ops.lean ====
section
/-! DEFINITION. The named operations that the meanings share: the receive queue, the payload buffer, the end of a frame,
the results handed to the host, and the free values. -/

namespace Sys2Proof.Machine

/-- `RxAvail()` (20_memory.md R52), as a natural number (log 10). -/
def rxAvail (s : State) : Nat := s.rxq.length

/-- `RxRead(n)` (R52), for `n ≤ RxAvail()`: the first `n` bytes, and the state without them. -/
def rxRead (n : Nat) (s : State) : List Byte × State :=
  (s.rxq.take n, { s with rxq := s.rxq.drop n })

/-- The transport appends at the tail (R51). -/
def append (bs : List Byte) (s : State) : State := { s with rxq := s.rxq ++ bs }

/-- What the transport appends before one sampling of `RxAvail` inside a POLL (R58, D12): the next chunk of
`arrivals`. Log 4. -/
def arrive (s : State) : State :=
  match s.arrivals with
  | [] => s
  | chunk :: rest => { s with rxq := s.rxq ++ chunk, arrivals := rest }

/-- `PBUF[addr..addr+n)` read (00_scope.md section 5.3). -/
def readPbuf (s : State) (addr n : Nat) : Except Fault (List Byte) :=
  if pbufSize < addr + n then .error .pbufRange
  else
    match Memory.readBytes s.pbuf addr n with
    | some bs => .ok bs
    | none => .error .pbufUnwritten

/-- `PBUF[addr..addr+|bs|) <- bs`. -/
def writePbuf (s : State) (addr : Nat) (bs : List Byte) : Except Fault State :=
  if pbufSize < addr + bs.length then .error .pbufRange
  else .ok { s with pbuf := Memory.writeBytes s.pbuf addr bs }

/-- The discard sequence, the counterpart of taking an exception (60_exceptions.md R188): every frame-ending path does
exactly this, success included. There is no return from it (R190). -/
def endFrame (s : State) : State := { s with st := .idle, need := 1#8 }

/-- A result handed to the host (10_state.md R32, 20_memory.md R50 (4)). -/
def hand (r : PollResult) (s : State) : State := { s with results := s.results ++ [r] }

/-- `A` and `B` become unspecified (10_state.md R27, D28): two free values. Log 2. -/
def scrambleSums (s : State) : State :=
  { s with a := Config.freeByte s.freeCtr, b := Config.freeByte (s.freeCtr + 1), freeCtr := s.freeCtr + 2 }

/-- `ID`, `LEN`, `A`, `B` become unspecified (70_reset_and_hazards.md R210): four free values; `PBUF` has no value
(log 3). Log 2. -/
def scrambleAll (s : State) : State :=
  { s with
    msgId := Config.freeByte s.freeCtr, msgLen := Config.freeByte (s.freeCtr + 1),
    a := Config.freeByte (s.freeCtr + 2), b := Config.freeByte (s.freeCtr + 3),
    pbuf := [], freeCtr := s.freeCtr + 4 }

/-- What an assembler step or a message-level outcome gives: the state after it, and the result it yields if it yields
(41_frame_assembler.md R140: only GETPAY does). -/
abbrev Fired := Host.Outcome (State × Option PollResult) Fault Refusal

/-- An operation performed by itself: what it yields is handed to the host. -/
def deliver : Fired → Host.Outcome State Fault Refusal
  | .next (s, some r) => .next (hand r s)
  | .next (s, none) => .next s
  | .fault f => .fault f
  | .refused r => .refused r

end Sys2Proof.Machine
end

