-- ==== Sys2Proof/Machine/Flags.lean ====
section
/-! DEFINITION. The core has no flags (10_state.md R29). What a step tests are conditions computed on the spot; this
file holds them, and the views a host takes of a result. -/

namespace Sys2Proof.Machine

/-- The enabling condition `RxAvail() >= NEED`, unsigned (41_frame_assembler.md R130). -/
def enabled (s : State) : Bool := decide (s.need.toNat ≤ rxAvail s)

/-- What `NEED` is in each state: 1, and `LEN` in `HaveMsgLen` (10_state.md R22). -/
def needFor (st : AsmState) (len : Byte) : Byte :=
  match st with
  | .idle => 1#8
  | .sawFirstSync => 1#8
  | .sawSecondSync => 1#8
  | .haveMsgId => 1#8
  | .haveMsgLen => len

/-- `NEED` obeys R22. States where it does not cannot arise (R34). -/
def needOk (s : State) : Bool := s.need == needFor s.st s.msgLen

/-- The 3-bit code of a cause (60_exceptions.md R180). -/
def Cause.code : Cause → BitVec 3
  | .notEnough => 0#3
  | .cksum => 1#3
  | .badLen => 2#3
  | .unknownId => 3#3
  | .contentLen => 4#3

/-- `msg_of` (10_state.md R32): the view of a host that ignores causes. -/
def msgOf : PollResult → Option (Byte × Fields)
  | .message kind fields => some (kind, fields)
  | .nothing _ _ => none

/-- A `Nothing` that carries no value: every cause but `UNKNOWN_ID` (R180). -/
def nothing (c : Cause) : PollResult := .nothing c none

/-- `Nothing(UNKNOWN_ID, id)` (R180, R184). -/
def unknownKind (id : Byte) : PollResult := .nothing .unknownId (some id)

end Sys2Proof.Machine
end

