-- ==== Sys2Proof/Machine/Registry.lean ====
section
/-! DEFINITION. The registry of this hardware: the one Pose entry (00_scope.md R8, 42_payload_decoder.md R161). -/

namespace Sys2Proof.Machine

/-- `POSE_ID` (D10). -/
def poseId : Byte := 0x01#8

/-- `POSE_CONTENT_LEN` (R85). -/
def poseContentLen : Nat := 12

/-- DECODE_POSE (R161): theta, x, y on the wire, each little-endian; handed over as (x, y, theta). -/
def decodePose (content : List Byte) (h : content.length = poseContentLen) : Fields :=
  have hl : content.length = 12 := h
  let theta := unle32 content[0] content[1] content[2] content[3]
  let x := unle32 content[4] content[5] content[6] content[7]
  let y := unle32 content[8] content[9] content[10] content[11]
  .pose x y theta

/-- The Pose entry. -/
def poseEntry : Entry := ⟨poseId, poseContentLen, decodePose⟩

/-- This hardware: one entry, and an unknown id ends the POLL (C2, D7). -/
def hardware : Config := ⟨[poseEntry], true⟩

/-- `REGISTRY(id)`, keyed by the whole 8-bit id (R160). -/
def lookup (cfg : Config) (id : Byte) : Option Entry := cfg.registry.find? (fun e => e.id == id)

/-- The decoder applied to a content: defined only for a content of exactly its own length (R163). -/
def applyEntry (e : Entry) (c : List Byte) : Option Fields :=
  if h : c.length = e.contentLen then some (e.decode c h) else none

end Sys2Proof.Machine
end

