-- ==== Sys2Proof/Syntax.lean ====
section
/-! DEFINITION. The fifteen operations of 30_encoding.md R87, one constructor each, and the words that name them. -/

namespace Sys2Proof

/-- An operation of the core, with the operand its row or its notation gives it (30_encoding.md sections 5 and 7).
`idleSkip`, `sync1Miss`, `getid` and `getlen` carry the byte that selects them and that they read. -/
inductive Instr where
  /-- `CK.CLR`, R110. -/
  | ckClr
  /-- `CK.ABS d`, R111. -/
  | ckAbs (d : Byte)
  /-- `CK.RES`, R112. -/
  | ckRes
  /-- `IDLE.SYNC`, R131. -/
  | idleSync
  /-- `IDLE.SKIP(b)`, R132. -/
  | idleSkip (b : Byte)
  /-- `SYNC1.SYNC`, R133. -/
  | sync1Sync
  /-- `SYNC1.MISS(b)`, R134. -/
  | sync1Miss (b : Byte)
  /-- `GETID(b)`, R135. -/
  | getid (b : Byte)
  /-- `GETLEN(b)`, R136. -/
  | getlen (b : Byte)
  /-- `GETPAY`, R137: its selector ignores the head byte, which may be absent (R86). -/
  | getpay
  /-- `POSE`, R161. -/
  | pose
  /-- `POSE.BADLEN`, R164, with the `LEN` half of its selector. -/
  | poseBadlen (len : Byte)
  /-- `UNKNOWN`, R162, with both halves of its selector. -/
  | unknown (id len : Byte)
  /-- `POLL`, R139. -/
  | poll
  /-- `RESET`, R210. -/
  | reset
deriving DecidableEq, Repr

/-- The four formats of R87. Each has a selector of its own (30_encoding.md section 5): `ck_op`, `{ST, b}`,
`{ID, LEN}`, `{rst, poll_req}`. -/
inductive Format where
  | ckop
  | step
  | frame
  | call
deriving DecidableEq, Repr

/-- An operation as the hardware is given it: which selector, the selector's bits (zero-extended to 16), and the data
operand `ck_data`, which only CK.ABS uses (R89). -/
structure OpWord where
  fmt : Format
  sel : BitVec 16
  data : Byte
deriving DecidableEq, Repr

end Sys2Proof
end

