-- ==== Sys2Proof/WellFormed.lean ====
section
/-! DEFINITION. Which operands an operation may carry: those that its row of the table selects it with
(30_encoding.md R86, R88: a row with more mask bits takes the other values). -/

namespace Sys2Proof

/-- An operation whose operands its own row selects.
`IDLE.SKIP` and `SYNC1.MISS` apply when the byte is not `0xFF`; `POSE.BADLEN` when `LEN` is not `0x0E`; `UNKNOWN`
when `ID` is not `0x01` (R86, R88). -/
def Instr.wellFormed : Instr → Bool
  | .ckClr => true
  | .ckAbs _ => true
  | .ckRes => true
  | .idleSync => true
  | .idleSkip b => b != 0xFF#8
  | .sync1Sync => true
  | .sync1Miss b => b != 0xFF#8
  | .getid _ => true
  | .getlen _ => true
  | .getpay => true
  | .pose => true
  | .poseBadlen len => len != 0x0E#8
  | .unknown id _ => id != 0x01#8
  | .poll => true
  | .reset => true

end Sys2Proof
end

