-- ==== Sys2Proof/Decode.lean ====
section
/-! DEFINITION. The selector table of 30_encoding.md R86, R88, R89, R91, the decoder that reads it and the encoder. -/

namespace Sys2Proof

/-- Why a word names no operation. -/
inductive Reject where
  /-- `csel = 0b00`: no request (R91). -/
  | noRequest
  /-- A reserved selector: `ck_op = 0b11` (R90, U4), or `ST` = 5, 6, 7 (R34, U3). -/
  | reserved (fmt : Format)
  /-- Bits set above the format's selector width. -/
  | excess (fmt : Format)
deriving DecidableEq, Repr

/-- What a word is. -/
inductive Decoded where
  | instr (i : Instr)
  | reject (r : Reject)
deriving DecidableEq, Repr

/-- The width of a format's selector in bits: `ck_op` 2, `{ST, b}` 11, `{ID, LEN}` 16, `{rst, poll_req}` 2. -/
def Format.width : Format → Nat
  | .ckop => 2
  | .step => 11
  | .frame => 16
  | .call => 2

/-- `{ST[2:0], b[7:0]}`, the STEP selector (R86). -/
def stepSel (st : BitVec 3) (b : Byte) : BitVec 16 := (0#5 ++ st ++ b : BitVec 16)

/-- `{ID[7:0], LEN[7:0]}`, the FRAME selector (R88). -/
def frameSel (id len : Byte) : BitVec 16 := (id ++ len : BitVec 16)

/-- Bits 7..0 of a selector: the byte `b` of STEP, the `LEN` of FRAME. -/
def OpWord.lo (w : OpWord) : Byte := w.sel.extractLsb' 0 8

/-- Bits 15..8 of a selector: the `ID` of FRAME. -/
def OpWord.hi (w : OpWord) : Byte := w.sel.extractLsb' 8 8

/-- A row of a table: it applies when `sel & mask = value`, and then stands for `build w`. -/
structure Row (α : Type) where
  fmt : Format
  mask : BitVec 16
  value : BitVec 16
  build : OpWord → α

def Row.applies {α : Type} (r : Row α) (w : OpWord) : Bool := r.fmt = w.fmt && w.sel &&& r.mask == r.value

/-- The row with another name for what it stands for. -/
def Row.map {α β : Type} (f : α → β) (r : Row α) : Row β := ⟨r.fmt, r.mask, r.value, fun w => f (r.build w)⟩

/-- R89. -/
def ckopRows : List (Row Instr) :=
  [ ⟨.ckop, 0x3#16, 0x0#16, fun _ => .ckClr⟩,
    ⟨.ckop, 0x3#16, 0x1#16, fun w => .ckAbs w.data⟩,
    ⟨.ckop, 0x3#16, 0x2#16, fun _ => .ckRes⟩ ]

/-- R86, the rows with more mask bits first. -/
def stepRows : List (Row Instr) :=
  [ ⟨.step, 0x7FF#16, 0x0FF#16, fun _ => .idleSync⟩,
    ⟨.step, 0x7FF#16, 0x1FF#16, fun _ => .sync1Sync⟩,
    ⟨.step, 0x700#16, 0x000#16, fun w => .idleSkip w.lo⟩,
    ⟨.step, 0x700#16, 0x100#16, fun w => .sync1Miss w.lo⟩,
    ⟨.step, 0x700#16, 0x200#16, fun w => .getid w.lo⟩,
    ⟨.step, 0x700#16, 0x300#16, fun w => .getlen w.lo⟩,
    ⟨.step, 0x700#16, 0x400#16, fun _ => .getpay⟩ ]

/-- A message-level outcome under any registry (R88): a content that the kind `id` decodes, a content that is not of the
length of the registered kind `id`, an id that is not registered. POSE, POSE.BADLEN and UNKNOWN are the three under the
default registry. -/
inductive FrameOp where
  | message (id : Byte)
  | badLen (id len : Byte)
  | unknown (id len : Byte)
deriving DecidableEq, Repr

/-- R88: the decode row of a registered id with content length `n`: `{id, n+2}`, mask `0xFFFF`. -/
def messageRow (e : Entry) : Row FrameOp :=
  ⟨.frame, 0xFFFF#16, frameSel e.id (BitVec.ofNat 8 (e.contentLen + 2)), fun _ => .message e.id⟩

/-- R88: the bad-length row of a registered id: `{id, any}`, mask `0xFF00`. -/
def badLenRow (e : Entry) : Row FrameOp := ⟨.frame, 0xFF00#16, frameSel e.id 0#8, fun w => .badLen e.id w.lo⟩

/-- R88: UNKNOWN, last. -/
def unknownRow : Row FrameOp := ⟨.frame, 0x0000#16, 0x0000#16, fun w => .unknown w.hi w.lo⟩

/-- R88: the FRAME rows generated from a registry, those with more mask bits first. -/
def frameRowsFor (cfg : Config) : List (Row FrameOp) :=
  cfg.registry.map messageRow ++ cfg.registry.map badLenRow ++ [unknownRow]

/-- The outcome that a FRAME word selects under a registry (R88). The last row applies to every FRAME word. -/
def decodeFrame (cfg : Config) (w : OpWord) : FrameOp :=
  match (frameRowsFor cfg).find? (fun r => r.applies w) with
  | some r => r.build w
  | none => .unknown w.hi w.lo

/-- The operation of the table that an outcome is under the default registry, whose one kind is Pose (R87). -/
def FrameOp.toInstr : FrameOp → Instr
  | .message _ => .pose
  | .badLen _ len => .poseBadlen len
  | .unknown id len => .unknown id len

/-- R88 for this hardware: the rows generated from the default registry. -/
def frameRows : List (Row Instr) := (frameRowsFor Machine.hardware).map (Row.map FrameOp.toInstr)

/-- R91, the row with more mask bits first. -/
def callRows : List (Row Instr) :=
  [ ⟨.call, 0x3#16, 0x1#16, fun _ => .poll⟩,
    ⟨.call, 0x2#16, 0x2#16, fun _ => .reset⟩ ]

/-- The rows of one format, those with more mask bits first, so that the first that applies is the one R86 and R88
choose. -/
def rowsOf : Format → List (Row Instr)
  | .ckop => ckopRows
  | .step => stepRows
  | .frame => frameRows
  | .call => callRows

/-- What a word is when no row of its format applies. -/
def noRow : Format → Reject
  | .call => .noRequest
  | f => .reserved f

/-- The decoder: total on every word, rejecting by name. -/
def decode (w : OpWord) : Decoded :=
  if 2 ^ w.fmt.width ≤ w.sel.toNat then .reject (.excess w.fmt)
  else
    match (rowsOf w.fmt).find? (fun r => r.applies w) with
    | some r => .instr (r.build w)
    | none => .reject (noRow w.fmt)

/-- The encoder, from the same tables: don't-care bits are 0 (the head byte of GETPAY, `poll_req` of RESET). -/
def encode : Instr → OpWord
  | .ckClr => ⟨.ckop, 0x0#16, 0#8⟩
  | .ckAbs d => ⟨.ckop, 0x1#16, d⟩
  | .ckRes => ⟨.ckop, 0x2#16, 0#8⟩
  | .idleSync => ⟨.step, stepSel 0#3 0xFF#8, 0#8⟩
  | .idleSkip b => ⟨.step, stepSel 0#3 b, 0#8⟩
  | .sync1Sync => ⟨.step, stepSel 1#3 0xFF#8, 0#8⟩
  | .sync1Miss b => ⟨.step, stepSel 1#3 b, 0#8⟩
  | .getid b => ⟨.step, stepSel 2#3 b, 0#8⟩
  | .getlen b => ⟨.step, stepSel 3#3 b, 0#8⟩
  | .getpay => ⟨.step, stepSel 4#3 0#8, 0#8⟩
  | .pose => ⟨.frame, frameSel 0x01#8 0x0E#8, 0#8⟩
  | .poseBadlen len => ⟨.frame, frameSel 0x01#8 len, 0#8⟩
  | .unknown id len => ⟨.frame, frameSel id len, 0#8⟩
  | .poll => ⟨.call, 0x1#16, 0#8⟩
  | .reset => ⟨.call, 0x2#16, 0#8⟩

/-- The order in which `tableWord` tries the rows of the table for a bare number. A number carries no format, and the
four formats' selectors overlap as numbers, so this order, not the hardware, settles which row a shared number
stands for. DESIGN CHOICE, log 12: CALL before CKOP; the rows that fix every selector bit, then STEP, then FRAME. -/
def tableOrder8 : List (Row Instr) := callRows ++ ckopRows

/-- As `tableOrder8`, for the rows of 11 and 16 bits. DESIGN CHOICE, log 12. -/
def tableOrder16 : List (Row Instr) := stepRows.take 2 ++ frameRows.take 1 ++ stepRows.drop 2 ++ frameRows.drop 1

/-- The word that a bare number of the opcode table stands for: the format of the first row in the order above that
applies, the number as its selector, `ck_data` 0. DESIGN CHOICE, log 12. -/
def tableWord (nbits w : Nat) : Option OpWord :=
  let rows := if nbits = 8 then tableOrder8 else if nbits = 16 then tableOrder16 else []
  if 2 ^ nbits ≤ w then none
  else
    let word (f : Format) : OpWord := ⟨f, BitVec.ofNat 16 w, 0#8⟩
    match rows.find? (fun r => decide (w < 2 ^ r.fmt.width) && r.applies (word r.fmt)) with
    | some r => some (word r.fmt)
    | none => none

/-- The operation the decoder reads from a number of the opcode table. -/
def decodeTableWord (nbits w : Nat) : Option Instr :=
  match tableWord nbits w with
  | none => none
  | some ow =>
    match decode ow with
    | .instr i => some i
    | .reject _ => none

end Sys2Proof
end

