-- ==== Sys2Proof/Machine/Operands.lean ====
section
/-! DEFINITION. The operand forms: the head byte of the queue, the two selectors the core forms from its own registers,
and the two parts of a payload. -/

namespace Sys2Proof.Machine

/-- The numeric encoding of `ST` (10_state.md R21). -/
def AsmState.code : AsmState → BitVec 3
  | .idle => 0#3
  | .sawFirstSync => 1#3
  | .sawSecondSync => 2#3
  | .haveMsgId => 3#3
  | .haveMsgLen => 4#3

/-- `b = RXQ[0]`, the byte a STEP selector is formed with. On an empty queue `b` does not exist and the selector is
formed with 0: only GETPAY, whose mask ignores `b`, can be enabled then (30_encoding.md R86). -/
def headByte (s : State) : Byte := s.rxq.headD 0#8

/-- The STEP selector `{ST, RXQ[0]}` of a state (R86). -/
def stepWord (s : State) : OpWord := ⟨.step, stepSel s.st.code (headByte s), 0#8⟩

/-- The FRAME selector `{ID, LEN}` of a state (R88). -/
def frameWord (s : State) : OpWord := ⟨.frame, frameSel s.msgId s.msgLen, 0#8⟩

/-- The content part of a payload: all but its last two bytes (20_memory.md R56). Used only where `2 ≤ |p|`. -/
def contentOf (p : List Byte) : List Byte := p.take (p.length - cksumLen)

/-- The checksum part of a payload: its last two bytes (R56). Used only where `2 ≤ |p|`. -/
def cksumOf (p : List Byte) : List Byte := p.drop (p.length - cksumLen)

end Sys2Proof.Machine
end

