-- ==== Sys2Proof/Machine/Checksum.lean ====
section
/-! DEFINITION. The checksum unit CK (40_checksum.md): CK.CLR, CK.ABS, CK.RES, and COMPUTE and VERIFY. -/

namespace Sys2Proof.Machine

/-- The accumulators after one byte (R111): `A` first, then `B` with the new `A`; carries are dropped (R115). -/
def absorb (ab : Byte × Byte) (d : Byte) : Byte × Byte := (ab.1 + d, ab.2 + (ab.1 + d))

/-- `{A[7:0], B[7:0]}` (R112): `A` is the high byte. -/
def sumOf (ab : Byte × Byte) : U16 := (ab.1 ++ ab.2 : BitVec 16)

/-- CK.CLR (R110). -/
def execCkClr (s : State) : Host.Outcome State Fault Refusal := .next { s with a := 0#8, b := 0#8 }

/-- CK.ABS (R111). -/
def execCkAbs (d : Byte) (s : State) : Host.Outcome State Fault Refusal :=
  .next { s with a := (absorb (s.a, s.b) d).1, b := (absorb (s.a, s.b) d).2 }

/-- CK.RES (R112): the result goes out on `ck_sum`; `A` and `B` are not changed. -/
def execCkRes (s : State) : Host.Outcome State Fault Refusal :=
  .next { s with sums := s.sums ++ [sumOf (s.a, s.b)] }

/-- COMPUTE (R113), as a fold from cleared accumulators. -/
def compute (bytes : List Byte) : U16 := sumOf (bytes.foldl absorb (0#8, 0#8))

/-- VERIFY (R114), false on a payload shorter than two bytes (D18). -/
def verify (id len : Byte) (p : List Byte) : Bool :=
  if p.length < cksumLen then false
  else
    match cksumOf p with
    | [lo, hi] => compute (id :: len :: contentOf p) == unle16 lo hi
    | _ => false

end Sys2Proof.Machine
end

