-- ==== Sys2Proof/Machine/Decoder.lean ====
section
/-! DEFINITION. The payload decoder PD (42_payload_decoder.md): the three message-level outcomes, for any registry, and the
operations POSE, POSE.BADLEN and UNKNOWN of this hardware's registry. -/

namespace Sys2Proof.Machine

/-- `Nothing(CONTENT_LEN)` (R164, R186): the content is not decoded. -/
def frameBadLen (s : State) : Fired := .next (s, some (nothing .contentLen))

/-- `Nothing(UNKNOWN_ID, ID)` (R162, R184). With `YIELD_ON_UNKNOWN` false it does not yield and the cause is dropped
(D7). -/
def frameUnknown (cfg : Config) (s : State) : Fired :=
  .next (s, if cfg.yieldOnUnknown then some (unknownKind s.msgId) else none)

/-- `Message(ID, dec.decode(c))` with `c = PBUF[0..LEN-2)` (R137, R163). A content that is not of the decoder's length
has no decoding; check 4 has then already ended the frame as CONTENT_LEN. -/
def frameMessage (e : Entry) (s : State) : Fired :=
  match readPbuf s 0 (s.msgLen.toNat - cksumLen) with
  | .error f => .fault f
  | .ok c =>
    match applyEntry e c with
    | some fields => .next (s, some (.message s.msgId fields))
    | none => frameBadLen s

/-- Checks 3 and 4 of GETPAY (R137): the registry lookup, then the content length. Only after `2 ≤ LEN`. -/
def frameOutcome (cfg : Config) (s : State) : Fired :=
  match lookup cfg s.msgId with
  | none => frameUnknown cfg s
  | some e => if s.msgLen.toNat - cksumLen = e.contentLen then frameMessage e s else frameBadLen s

/-- What an outcome yields (R161, R162, R164). `decodeFrame` names only registered ids as `message`. -/
def fireFrame (cfg : Config) (op : FrameOp) (s : State) : Fired :=
  match op with
  | .message id =>
    match lookup cfg id with
    | some e => frameMessage e s
    | none => frameUnknown cfg s
  | .badLen _ _ => frameBadLen s
  | .unknown _ _ => frameUnknown cfg s

/-- The common precondition of R161, R162, R164: `2 ≤ LEN` and VERIFY true of `PBUF[0..LEN)`. (VERIFY is false for
`LEN < 2`.) -/
def frameReady (s : State) : Bool :=
  match readPbuf s 0 s.msgLen.toNat with
  | .error _ => false
  | .ok p => verify s.msgId s.msgLen p

/-- An outcome performed by itself: only where its precondition holds (log 8). -/
def whenFrame (ok : Bool) (f : State → Fired) (s : State) : Host.Outcome State Fault Refusal :=
  if ok && frameReady s then deliver (f s) else .refused .notSelected

/-- POSE (R161): `ID = 0x01`, `LEN = 0x0E`. -/
def execPose (s : State) : Host.Outcome State Fault Refusal :=
  whenFrame (s.msgId == poseId && s.msgLen == 0x0E#8) (frameMessage poseEntry) s

/-- POSE.BADLEN (R164): `ID = 0x01`, `LEN` the operand, not `0x0E`. -/
def execPoseBadlen (len : Byte) (s : State) : Host.Outcome State Fault Refusal :=
  whenFrame (s.msgId == poseId && s.msgLen == len && len != 0x0E#8) frameBadLen s

/-- UNKNOWN (R162): `ID` and `LEN` the operands, `ID` not registered. -/
def execUnknown (id len : Byte) (s : State) : Host.Outcome State Fault Refusal :=
  whenFrame (s.msgId == id && s.msgLen == len && (lookup hardware id).isNone) (frameUnknown hardware) s

end Sys2Proof.Machine
end

