-- ==== Sys2Proof/Machine/Assembler.lean ====
section
/-! DEFINITION. The frame assembler FA (41_frame_assembler.md): the seven steps. -/

namespace Sys2Proof.Machine

/-- The shape of the six steps that read one byte (R131 to R136): in state `want` with `NEED = 1`; not enabled on an
empty queue, and then nothing happens (R130); else the head byte is removed and `k` decides. -/
def byteStep (want : AsmState) (k : Byte → State → Fired) (s : State) : Fired :=
  if s.st ≠ want ∨ s.need ≠ 1#8 then .refused .notSelected
  else
    match s.rxq with
    | [] => .next (s, none)
    | b :: rest => k b { s with rxq := rest }

/-- The step is the one selected: the byte read is the one its selector has (R86). -/
def whenByte (ok : Bool) (s : State) : Fired := if ok then .next (s, none) else .refused .notSelected

/-- IDLE.SYNC (R131). -/
def fireIdleSync (s : State) : Fired :=
  byteStep .idle (fun b t => whenByte (b == syncByte) { t with st := .sawFirstSync }) s

/-- IDLE.SKIP (R132): the byte is dropped. -/
def fireIdleSkip (b0 : Byte) (s : State) : Fired :=
  byteStep .idle (fun b t => whenByte (b == b0 && b != syncByte) { t with st := .idle }) s

/-- SYNC1.SYNC (R133). -/
def fireSync1Sync (s : State) : Fired :=
  byteStep .sawFirstSync (fun b t => whenByte (b == syncByte) { t with st := .sawSecondSync }) s

/-- SYNC1.MISS (R134): the byte is dropped and not examined again. -/
def fireSync1Miss (b0 : Byte) (s : State) : Fired :=
  byteStep .sawFirstSync (fun b t => whenByte (b == b0 && b != syncByte) { t with st := .idle }) s

/-- GETID (R135): every byte is accepted. -/
def fireGetid (b0 : Byte) (s : State) : Fired :=
  byteStep .sawSecondSync (fun b t => whenByte (b == b0) { t with msgId := b, st := .haveMsgId }) s

/-- GETLEN (R136): every byte is accepted, and becomes `NEED`. -/
def fireGetlen (b0 : Byte) (s : State) : Fired :=
  byteStep .haveMsgId (fun b t => whenByte (b == b0) { t with msgLen := b, need := b, st := .haveMsgLen }) s

/-- The unconditional part of GETPAY (R137, R188): `PBUF[0..LEN) <- RxRead(LEN)`, `ST <- Idle`, `NEED <- 1`; `A` and
`B` are unspecified afterwards (R27). -/
def takePayload (s : State) : Except Fault State :=
  let (p, t) := rxRead s.msgLen.toNat s
  match writePbuf t 0 p with
  | .error f => .error f
  | .ok u => .ok (scrambleSums (endFrame u))

/-- The four checks of GETPAY in their fixed order (R137, R187), on a state whose `PBUF` holds the payload. -/
def judge (cfg : Config) (s : State) : Fired :=
  if s.msgLen.toNat < cksumLen then .next (s, some (nothing .badLen))
  else
    match readPbuf s 0 s.msgLen.toNat with
    | .error f => .fault f
    | .ok p => if verify s.msgId s.msgLen p then frameOutcome cfg s else .next (s, some (nothing .cksum))

/-- GETPAY (R137): `ST = HaveMsgLen`, `NEED = LEN`; not enabled with fewer than `LEN` bytes, and then nothing happens
(R130); with `LEN = 0` it is always enabled. -/
def fireGetpay (cfg : Config) (s : State) : Fired :=
  if s.st ≠ .haveMsgLen ∨ s.need ≠ s.msgLen then .refused .notSelected
  else if rxAvail s < s.need.toNat then .next (s, none)
  else
    match takePayload s with
    | .error f => .fault f
    | .ok t => judge cfg t

/-- The step that a STEP operation is, for a POLL under any registry. Operations of other formats are no steps. -/
def fireStep (cfg : Config) (i : Instr) (s : State) : Fired :=
  match i with
  | .idleSync => fireIdleSync s
  | .idleSkip b => fireIdleSkip b s
  | .sync1Sync => fireSync1Sync s
  | .sync1Miss b => fireSync1Miss b s
  | .getid b => fireGetid b s
  | .getlen b => fireGetlen b s
  | .getpay => fireGetpay cfg s
  | .ckClr => .refused .notSelected
  | .ckAbs _ => .refused .notSelected
  | .ckRes => .refused .notSelected
  | .pose => .refused .notSelected
  | .poseBadlen _ => .refused .notSelected
  | .unknown _ _ => .refused .notSelected
  | .poll => .refused .notSelected
  | .reset => .refused .notSelected

/-- IDLE.SYNC by itself. -/
def execIdleSync (s : State) : Host.Outcome State Fault Refusal := deliver (fireIdleSync s)

/-- IDLE.SKIP by itself. -/
def execIdleSkip (b : Byte) (s : State) : Host.Outcome State Fault Refusal := deliver (fireIdleSkip b s)

/-- SYNC1.SYNC by itself. -/
def execSync1Sync (s : State) : Host.Outcome State Fault Refusal := deliver (fireSync1Sync s)

/-- SYNC1.MISS by itself. -/
def execSync1Miss (b : Byte) (s : State) : Host.Outcome State Fault Refusal := deliver (fireSync1Miss b s)

/-- GETID by itself. -/
def execGetid (b : Byte) (s : State) : Host.Outcome State Fault Refusal := deliver (fireGetid b s)

/-- GETLEN by itself. -/
def execGetlen (b : Byte) (s : State) : Host.Outcome State Fault Refusal := deliver (fireGetlen b s)

/-- GETPAY by itself, with this hardware's registry; the result it yields is handed to the host. -/
def execGetpay (s : State) : Host.Outcome State Fault Refusal := deliver (fireGetpay hardware s)

end Sys2Proof.Machine
end

