-- ==== Sys2Proof/Machine/Poll.lean ====
section
/-! DEFINITION. The host's operations: POLL, the driving loop (41_frame_assembler.md R139), and RESET
(70_reset_and_hazards.md R210). -/

namespace Sys2Proof.Machine

/-- The step selected by `(ST, RXQ[0])` (R86, R139), for a step that is enabled. -/
def fireSelected (cfg : Config) (s : State) : Fired :=
  match decode (stepWord s) with
  | .instr i => fireStep cfg i s
  | .reject _ => .refused .notSelected

/-- The loop of R139: `RxAvail()` is sampled afresh before every step, after whatever the transport appended meanwhile
(R58); too few bytes end the POLL with NOT_ENOUGH; a step that yields ends it with its result. `fuel` bounds the
number of steps. -/
def pollLoop (cfg : Config) : Nat → State → Host.Outcome State Fault Refusal
  | 0, _ => .refused .pollUnending
  | fuel + 1, s =>
    let t := arrive s
    if enabled t then
      match fireSelected cfg t with
      | .next (u, some r) => .next (hand r u)
      | .next (u, none) => pollLoop cfg fuel u
      | .fault f => .fault f
      | .refused r => .refused r
    else .next (hand (nothing .notEnough) t)

/-- How many bytes a POLL can meet: those queued and those that arrive during it (R144). -/
def pendingBytes (s : State) : Nat := s.rxq.length + s.arrivals.flatten.length

/-- POLL under any registry: at most one step more than there are bytes (R144). -/
def pollWith (cfg : Config) (s : State) : Host.Outcome State Fault Refusal := pollLoop cfg (pendingBytes s + 1) s

/-- POLL (R139). -/
def execPoll (s : State) : Host.Outcome State Fault Refusal := pollWith hardware s

/-- RESET (R210): `ST <- Idle`, `NEED <- 1`; `ID`, `LEN`, `PBUF`, `A`, `B` unspecified; `RXQ` not touched. -/
def execReset (s : State) : Host.Outcome State Fault Refusal := .next (endFrame (scrambleAll s))

end Sys2Proof.Machine
end

