-- ==== Sys2Proof/Machine/Dispatch.lean ====
section
/-! DEFINITION. One arm per operation. -/

namespace Sys2Proof.Machine

def exec (i : Instr) (s : State) : Host.Outcome State Fault Refusal :=
  match i with
  | .ckClr => Sys2Proof.Machine.execCkClr s
  | .ckAbs d => Sys2Proof.Machine.execCkAbs d s
  | .ckRes => Sys2Proof.Machine.execCkRes s
  | .idleSync => Sys2Proof.Machine.execIdleSync s
  | .idleSkip b => Sys2Proof.Machine.execIdleSkip b s
  | .sync1Sync => Sys2Proof.Machine.execSync1Sync s
  | .sync1Miss b => Sys2Proof.Machine.execSync1Miss b s
  | .getid b => Sys2Proof.Machine.execGetid b s
  | .getlen b => Sys2Proof.Machine.execGetlen b s
  | .getpay => Sys2Proof.Machine.execGetpay s
  | .pose => Sys2Proof.Machine.execPose s
  | .poseBadlen len => Sys2Proof.Machine.execPoseBadlen len s
  | .unknown id len => Sys2Proof.Machine.execUnknown id len s
  | .poll => Sys2Proof.Machine.execPoll s
  | .reset => Sys2Proof.Machine.execReset s

end Sys2Proof.Machine
end

