-- ==== Sys2Proof/Machine/Frame.lean ====
section
/-! DEFINITION. The sender's side (30_encoding.md R92): a pseudo-operation, not performed by the core; claims about frames
are stated with it. -/

namespace Sys2Proof.Machine

/-- The payload of a frame: the content and the checksum of `[id, len] ++ content`, little-endian (R80, R92). -/
def mkPayload (id : Byte) (c : List Byte) : List Byte :=
  c ++ le16 (compute (id :: BitVec.ofNat 8 (c.length + 2) :: c))

/-- MKFRAME(id, c), for `|c| ≤ 253` (R92). -/
def mkFrame (id : Byte) (c : List Byte) : List Byte :=
  syncByte :: syncByte :: id :: BitVec.ofNat 8 (c.length + 2) :: mkPayload id c

/-- POSEFRAME(theta, x, y) (30_encoding.md section 7). -/
def poseFrame (theta x y : U32) : List Byte := mkFrame 0x01#8 (le32 theta ++ le32 x ++ le32 y)

end Sys2Proof.Machine
end

