-- ==== Sys2Proof/Machine/Fetch.lean ====
section
/-! DEFINITION. Where the next operation comes from. The core has no program counter and no program (10_state.md R28):
an operation is asked for by the next input. A STEP word is formed from `(ST, RXQ[0])`, a FRAME word from `(ID, LEN)`. -/

namespace Sys2Proof.Machine

/-- What one input asks for. -/
inductive Fetched where
  /-- Nothing happens: no input, no request (`csel = 00`, R91), or a step that is not enabled (R130). -/
  | rest
  /-- The transport appends (R51). -/
  | feed (bytes : List Byte)
  /-- The operation this word names. -/
  | word (w : OpWord)
deriving DecidableEq, Repr

/-- The input at the head, read in the state `s` (whose registers a STEP or FRAME word is formed from). -/
def fetchInput (inp : Input) (s : State) : Fetched :=
  match inp with
  | .feed bs => .feed bs
  | .call csel => if csel = 0#2 then .rest else .word ⟨.call, csel.setWidth 16, 0#8⟩
  | .ckop op data => .word ⟨.ckop, op.setWidth 16, data⟩
  | .assemble => if enabled s then .word (stepWord s) else .rest
  | .dispatch => .word (frameWord s)

/-- What the machine does next. -/
def fetch (s : State) : Fetched :=
  match s.inputs with
  | [] => .rest
  | inp :: _ => fetchInput inp s

/-- The input taken. -/
def dropInput (s : State) : State := { s with inputs := s.inputs.tail }

/-- The refusal for a word that names no operation: the reserved `ck_op` (U4), or a reserved selector (U3). -/
def refusalOf : Reject → Refusal
  | .reserved .ckop => .reservedCkOp
  | _ => .notSelected

/-- An input put first. -/
def ask (inp : Input) (s : State) : State := { s with inputs := inp :: s.inputs }

/-- `ST` for a code; the codes 5, 6, 7 are never produced (R34) and leave `ST` as it is. -/
def withCode (c : BitVec 3) (s : State) : State :=
  match c.toNat with
  | 0 => { s with st := .idle, need := 1#8 }
  | 1 => { s with st := .sawFirstSync, need := 1#8 }
  | 2 => { s with st := .sawSecondSync, need := 1#8 }
  | 3 => { s with st := .haveMsgId, need := 1#8 }
  | 4 => { s with st := .haveMsgLen, need := 0#8, msgLen := 0#8 }
  | _ => s

/-- A state whose next step performs `w` (log 16): a CALL or CKOP word is asked for; for a STEP word `ST` and the head
byte are set so that it is the one selected, and enabled; for a FRAME word `ID` and `LEN` are set and `PBUF` holds a
payload of that length, of zero content, that VERIFY accepts. -/
def placeWord (w : OpWord) (s : State) : State :=
  match w.fmt with
  | .call => ask (.call (w.sel.extractLsb' 0 2)) s
  | .ckop => ask (.ckop (w.sel.extractLsb' 0 2) w.data) s
  | .step => ask .assemble (withCode (w.sel.extractLsb' 8 3) { s with rxq := w.lo :: s.rxq })
  | .frame =>
    let s' := { s with st := .idle, need := 1#8, msgId := w.hi, msgLen := w.lo }
    let p := if w.lo.toNat < cksumLen then [] else mkPayload w.hi (List.replicate (w.lo.toNat - cksumLen) 0#8)
    ask .dispatch { s' with pbuf := Memory.writeBytes s'.pbuf 0 p }

end Sys2Proof.Machine
end

