-- ==== Sys2Proof/Machine/Step.lean ====
section
/-! DEFINITION. One step of the machine: the next input is taken and what it asks for is done. -/

namespace Sys2Proof.Machine

/-- One step. With no input nothing happens. -/
def step (s : State) : Host.Outcome State Fault Refusal :=
  match fetch s with
  | .rest => .next (dropInput s)
  | .feed bs => .next (append bs (dropInput s))
  | .word w =>
    match decode w with
    | .instr i => exec i (dropInput s)
    | .reject r => .refused (refusalOf r)

/-- `s` with the table's word placed where the next step finds it. -/
def State.withFetchWord (s : State) (nbits w : Nat) : State :=
  match tableWord nbits w with
  | none => s
  | some ow => placeWord ow s

end Sys2Proof.Machine
end

