-- ==== Sys2Proof/Safety.lean ====
section
/-! DEFINITION. What claims are stated with: the invariant, the bytes still to come, and runs of several steps. -/

namespace Sys2Proof.Machine

/-- The invariant of the reachable states: `NEED` obeys R22 (10_state.md R34), `PBUF` is in canonical form. -/
def State.Inv (s : State) : Prop := needOk s = true ∧ Memory.wf s.pbuf

/-- The bytes still to come, oldest first: those queued, then those that arrive during POLLs. -/
def State.stream (s : State) : List Byte := s.rxq ++ s.arrivals.flatten

/-- The state that GETPAY leaves, whatever it yields, when it reads the payload `p` and the queue is then `rest`
(41_frame_assembler.md R137, R188). -/
def State.afterPayload (s : State) (p rest : List Byte) : State :=
  { s with
    st := .idle, need := 1#8, rxq := rest, pbuf := Memory.writeBytes s.pbuf 0 p,
    a := Config.freeByte s.freeCtr, b := Config.freeByte (s.freeCtr + 1), freeCtr := s.freeCtr + 2 }

/-- `t` is `s` after GETPAY read the payload `p` and yielded `r`, the queue being then `rest` (R137, R188): `ST` and `NEED` are those
of the end of a frame, `PBUF[0..|p|)` is the payload and every other byte of `PBUF` is as before, `r` is handed to the
host, `A` and `B` (and the counter of free values) are whatever they are (R27), and nothing else changed. -/
def FrameEnded (s t : State) (p rest : List Byte) (r : PollResult) : Prop :=
  t = { s with
    st := .idle, need := 1#8, rxq := rest, results := s.results ++ [r],
    pbuf := t.pbuf, a := t.a, b := t.b, freeCtr := t.freeCtr } ∧
  ∀ i, Memory.read t.pbuf i = if i < p.length then p[i]? else Memory.read s.pbuf i

/-- The bytes an operation other than POLL takes from the queue (10_state.md R28, 41_frame_assembler.md R130): `NEED` for an
assembler step that is enabled, none otherwise. -/
def bytesRead (i : Instr) (s : State) : Nat :=
  if (encode i).fmt = .step ∧ s.need.toNat ≤ s.rxq.length then s.need.toNat else 0

/-- How many bits of a mask are one. -/
def maskBits (m : BitVec 16) : Nat := ((List.range 16).filter fun k => m.getLsbD k).length

/-- The four checks of R187 as a function of the frame alone: what GETPAY yields. -/
def verdict (cfg : Config) (id len : Byte) (p : List Byte) : Option PollResult :=
  if p.length < 2 then some (nothing .badLen)
  else if verify id len p = false then some (nothing .cksum)
  else
    match lookup cfg id with
    | none => if cfg.yieldOnUnknown then some (unknownKind id) else none
    | some e =>
      match applyEntry e (contentOf p) with
      | none => some (nothing .contentLen)
      | some fields => some (.message id fields)

/-- `n` steps, stopping at the first fault or refusal. -/
def stepMany : Nat → State → Host.Outcome State Fault Refusal
  | 0, s => .next s
  | n + 1, s =>
    match step s with
    | .next t => stepMany n t
    | .fault f => .fault f
    | .refused r => .refused r

/-- Operations performed one after the other, stopping at the first fault or refusal. -/
def execAll : List Instr → State → Host.Outcome State Fault Refusal
  | [], s => .next s
  | i :: is, s =>
    match exec i s with
    | .next t => execAll is t
    | .fault f => .fault f
    | .refused r => .refused r

/-- A POLL request (R91). -/
def pollReq : Input := .call 1#2

/-- An input that is a feed or a POLL: what the surroundings of R145 do. -/
def Input.isFeedOrPoll : Input → Bool
  | .feed _ => true
  | .call csel => csel == 1#2
  | .ckop _ _ => false
  | .assemble => false
  | .dispatch => false

/-- The bytes an input appends. -/
def Input.bytes : Input → List Byte
  | .feed bs => bs
  | .call _ => []
  | .ckop _ _ => []
  | .assemble => []
  | .dispatch => []

/-- The bytes that a sequence of inputs appends, in order. -/
def fedBytes (is : List Input) : List Byte := (is.map Input.bytes).flatten

/-- No two consecutive `0xFF` bytes (R146). -/
def noSyncPair : List Byte → Bool
  | b :: c :: rest => !(b == syncByte && c == syncByte) && noSyncPair (c :: rest)
  | _ => true

/-- A state of pure noise (R146): the core hunts, only feeds and POLLs are asked for, nothing arrives inside a POLL, and
the bytes still to be read, with the `0xFF` just seen in front, hold no two consecutive `0xFF`. -/
def State.Noise (s : State) : Prop :=
  s.need = 1#8 ∧ (s.st = .idle ∨ s.st = .sawFirstSync) ∧ s.arrivals = [] ∧
    (∀ inp ∈ s.inputs, inp.isFeedOrPoll = true) ∧
    noSyncPair ((if s.st = .sawFirstSync then [syncByte] else []) ++ s.rxq ++ fedBytes s.inputs) = true

end Sys2Proof.Machine
end

