-- ==== Sys2Proof/Certificates/Slice0/Obligations.lean ====
section
/-! DEFINITION. The statements for the provers. Each docstring names the rule of spec/ it formalises. Where a statement rests
on a decision of the spec's own (a row D<n> of 92_eei_decisions.md) or of the model (a log entry), the docstring says so. -/

open Sys2Proof Sys2Proof.Machine

/-! ## The checksum unit -/

/-- R110: CK.CLR (`ck_op = 0b00`, whatever the data) sets both accumulators to 0 and changes nothing else. -/
def Obligations.CkClrClearsBothAccumulators : Prop :=
  ∀ (d : Byte) (s : State), decode ⟨.ckop, 0b00#16, d⟩ = .instr .ckClr ∧
    exec .ckClr s = .next { s with a := 0#8, b := 0#8 }

/-- R111: CK.ABS (`ck_op = 0b01`, `ck_data = d`): `A <- (A + d) mod 256`, then `B <- (B + A) mod 256` with the new `A`;
nothing else changes. -/
def Obligations.CkAbsAddsToAThenNewAToB : Prop :=
  ∀ (d : Byte) (s : State), decode ⟨.ckop, 0b01#16, d⟩ = .instr (.ckAbs d) ∧
    exec (.ckAbs d) s = .next
      { s with a := BitVec.ofNat 8 ((s.a.toNat + d.toNat) % 256),
               b := BitVec.ofNat 8 ((s.b.toNat + (s.a.toNat + d.toNat) % 256) % 256) }

/-- R112: CK.RES (`ck_op = 0b10`): `ck_sum <- (zext_16(A) << 8) | zext_16(B)`; `A` and `B`, and all else, are not
changed. (The value handed out stands at the end of the list `sums`: log 6.) -/
def Obligations.CkResHandsOutAHighBLow : Prop :=
  ∀ (d : Byte) (s : State), decode ⟨.ckop, 0b10#16, d⟩ = .instr .ckRes ∧
    exec .ckRes s = .next { s with sums := s.sums ++ [(s.a.setWidth 16 <<< 8) ||| s.b.setWidth 16] }

/-- R113: COMPUTE is CK.CLR, then CK.ABS of each byte in order, then CK.RES, whatever `A` and `B` held before. -/
def Obligations.ComputeIsClearAbsorbRead : Prop :=
  ∀ (bytes : List Byte) (s : State), ∃ t : State,
    execAll (.ckClr :: (bytes.map Instr.ckAbs ++ [.ckRes])) s = .next t ∧
      t = { s with a := t.a, b := t.b, sums := s.sums ++ [compute bytes] }

/-- 40_checksum.md section 4, the closed form (R116, derived there): the high byte is the sum of the bytes, the low
byte the sum weighted `n, n-1, …, 1`, both mod 256. -/
def Obligations.ChecksumIsPlainSumAndWeightedSum : Prop :=
  ∀ bytes : List Byte, (compute bytes).toNat =
    256 * ((bytes.map BitVec.toNat).sum % 256) +
      (bytes.zipIdx.map fun bi => (bytes.length - bi.2) * bi.1.toNat).sum % 256

/-- R117, the round trip. -/
def Obligations.BuiltPayloadAlwaysVerifies : Prop :=
  ∀ (id : Byte) (c : List Byte), c.length ≤ 253 →
    verify id (BitVec.ofNat 8 (c.length + 2))
      (c ++ le16 (compute ([id, BitVec.ofNat 8 (c.length + 2)] ++ c))) = true

/-- 40_checksum.md section 5 (R118, derived there; C4): a change confined to one byte among the id, the length, the
content and the checksum field is always detected. -/
def Obligations.OneChangedByteIsAlwaysDetected : Prop :=
  ∀ (id len id' len' : Byte) (p p' : List Byte), verify id len p = true →
    (id' ≠ id ∧ len' = len ∧ p' = p ∨
      id' = id ∧ len' ≠ len ∧ p' = p ∨
      id' = id ∧ len' = len ∧ ∃ (i : Nat) (x : Byte), i < p.length ∧ p[i]? ≠ some x ∧ p' = p.set i x) →
    verify id' len' p' = false

/-- 40_checksum.md section 5, the limit (R118, derived there; R219): adding `0x80` to two content bytes two positions
apart is never detected. -/
def Obligations.TwoChangedBytesTwoApartPassUndetected : Prop :=
  ∀ (id len x y lo hi : Byte) (c₁ c₂ : List Byte) (m : Byte),
    verify id len (c₁ ++ [x + 0x80#8, m, y + 0x80#8] ++ c₂ ++ [lo, hi]) =
      verify id len (c₁ ++ [x, m, y] ++ c₂ ++ [lo, hi])

/-! ## The frame assembler -/

/-- R131, with the step selected (R86). -/
def Obligations.IdleSyncTakesTheFirstSyncByte : Prop :=
  ∀ (s : State) (rest : List Byte), s.st = .idle → s.need = 1#8 → s.rxq = 0xFF#8 :: rest →
    decode (stepWord s) = .instr .idleSync ∧ exec .idleSync s = .next { s with rxq := rest, st := .sawFirstSync }

/-- R132: the byte is dropped, `ST` stays, nothing else changes. -/
def Obligations.IdleSkipDropsOneByte : Prop :=
  ∀ (s : State) (b : Byte) (rest : List Byte), s.st = .idle → s.need = 1#8 → s.rxq = b :: rest → b ≠ 0xFF#8 →
    decode (stepWord s) = .instr (.idleSkip b) ∧ exec (.idleSkip b) s = .next { s with rxq := rest }

/-- R133, with the step selected (R86). -/
def Obligations.Sync1SyncTakesTheSecondSyncByte : Prop :=
  ∀ (s : State) (rest : List Byte), s.st = .sawFirstSync → s.need = 1#8 → s.rxq = 0xFF#8 :: rest →
    decode (stepWord s) = .instr .sync1Sync ∧ exec .sync1Sync s = .next { s with rxq := rest, st := .sawSecondSync }

/-- R134: both bytes are gone and the core is in `Idle`. -/
def Obligations.Sync1MissDropsTheByteAndGoesIdle : Prop :=
  ∀ (s : State) (b : Byte) (rest : List Byte), s.st = .sawFirstSync → s.need = 1#8 → s.rxq = b :: rest →
    b ≠ 0xFF#8 → decode (stepWord s) = .instr (.sync1Miss b) ∧
      exec (.sync1Miss b) s = .next { s with rxq := rest, st := .idle }

/-- R135: every byte value is accepted, `0xFF` included. -/
def Obligations.GetidLatchesAnyByteAsId : Prop :=
  ∀ (s : State) (b : Byte) (rest : List Byte), s.st = .sawSecondSync → s.need = 1#8 → s.rxq = b :: rest →
    decode (stepWord s) = .instr (.getid b) ∧
      exec (.getid b) s = .next { s with rxq := rest, msgId := b, st := .haveMsgId }

/-- R136: every byte value is accepted, and `NEED` is the new `LEN`. -/
def Obligations.GetlenLatchesAnyByteAsLenAndNeed : Prop :=
  ∀ (s : State) (b : Byte) (rest : List Byte), s.st = .haveMsgId → s.need = 1#8 → s.rxq = b :: rest →
    decode (stepWord s) = .instr (.getlen b) ∧
      exec (.getlen b) s = .next { s with rxq := rest, msgLen := b, need := b, st := .haveMsgLen }

/-- R130: a step of the state is enabled exactly when `RxAvail() >= NEED`; enabled, the selected step takes exactly
`NEED` bytes from the head of the queue; not enabled, nothing happens, whatever byte its selector names. -/
def Obligations.StepTakesExactlyNeedBytesOrDoesNothing : Prop :=
  ∀ s : State, needOk s = true →
    (s.need.toNat ≤ s.rxq.length → ∀ i, decode (stepWord s) = .instr i →
      ∃ t, exec i s = .next t ∧ t.rxq = s.rxq.drop s.need.toNat) ∧
    (s.rxq.length < s.need.toNat → ∀ b i, decode ⟨.step, stepSel s.st.code b, 0#8⟩ = .instr i →
      exec i s = .next s)

/-- R138, the complete next-state relation: in every state whose `NEED` obeys R22, a step that is enabled is one of
the seven rows, with the row's condition, next state, `NEED` after, and bytes consumed; no other step can be performed
there. -/
def Obligations.EnabledStepIsOneRowOfTheNextStateTable : Prop :=
  ∀ s : State, needOk s = true → s.need.toNat ≤ s.rxq.length →
    ∃ i t, decode (stepWord s) = .instr i ∧ exec i s = .next t ∧
      (∀ j u, (encode j).fmt = .step → exec j s = .next u → j = i) ∧
      (s.st = .idle ∧ s.rxq.head? = some 0xFF#8 ∧ i = .idleSync ∧ t.st = .sawFirstSync ∧ t.need = 1#8 ∧
          t.rxq = s.rxq.drop 1 ∨
        s.st = .idle ∧ (∃ b, b ≠ 0xFF#8 ∧ s.rxq.head? = some b ∧ i = .idleSkip b) ∧ t.st = .idle ∧ t.need = 1#8 ∧
          t.rxq = s.rxq.drop 1 ∨
        s.st = .sawFirstSync ∧ s.rxq.head? = some 0xFF#8 ∧ i = .sync1Sync ∧ t.st = .sawSecondSync ∧
          t.need = 1#8 ∧ t.rxq = s.rxq.drop 1 ∨
        s.st = .sawFirstSync ∧ (∃ b, b ≠ 0xFF#8 ∧ s.rxq.head? = some b ∧ i = .sync1Miss b) ∧ t.st = .idle ∧
          t.need = 1#8 ∧ t.rxq = s.rxq.drop 1 ∨
        s.st = .sawSecondSync ∧ (∃ b, s.rxq.head? = some b ∧ i = .getid b ∧ t.msgId = b) ∧ t.st = .haveMsgId ∧
          t.need = 1#8 ∧ t.rxq = s.rxq.drop 1 ∨
        s.st = .haveMsgId ∧ (∃ b, s.rxq.head? = some b ∧ i = .getlen b ∧ t.msgLen = b) ∧ t.st = .haveMsgLen ∧
          t.need = t.msgLen ∧ t.rxq = s.rxq.drop 1 ∨
        s.st = .haveMsgLen ∧ i = .getpay ∧ t.st = .idle ∧ t.need = 1#8 ∧ t.rxq = s.rxq.drop s.msgLen.toNat)

/-- 60_exceptions.md section 1 and D8, the spec's decision on when the guard fires: `LEN` of 0 or 1 is BAD_LEN, after
the 0 or 1 payload bytes have been consumed; VERIFY plays no part. -/
def Obligations.GetpayOfShortLengthIsBadLen : Prop :=
  ∀ (s : State) (p rest : List Byte), s.st = .haveMsgLen → s.need = s.msgLen → s.rxq = p ++ rest →
    p.length = s.msgLen.toNat → s.msgLen.toNat < 2 →
    ∃ t, exec .getpay s = .next t ∧ FrameEnded s t p rest (.nothing .badLen none)

/-- R183: a checksum mismatch discards the frame, whatever its id. -/
def Obligations.GetpayOfBadChecksumIsCksum : Prop :=
  ∀ (s : State) (p rest : List Byte), s.st = .haveMsgLen → s.need = s.msgLen → s.rxq = p ++ rest →
    p.length = s.msgLen.toNat → 2 ≤ s.msgLen.toNat → verify s.msgId s.msgLen p = false →
    ∃ t, exec .getpay s = .next t ∧ FrameEnded s t p rest (.nothing .cksum none)

/-- R184: a frame that verifies and whose id is not registered (for this hardware: any id but `0x01`) is discarded; the
result carries the id. -/
def Obligations.GetpayOfUnregisteredIdIsUnknownId : Prop :=
  ∀ (s : State) (p rest : List Byte), s.st = .haveMsgLen → s.need = s.msgLen → s.rxq = p ++ rest →
    p.length = s.msgLen.toNat → verify s.msgId s.msgLen p = true → s.msgId ≠ 0x01#8 →
    ∃ t, exec .getpay s = .next t ∧ FrameEnded s t p rest (.nothing .unknownId (some s.msgId))

/-- 60_exceptions.md section 1 and D9, the spec's decision: a frame that verifies under id `0x01` with a content that is
not 12 bytes long is discarded. -/
def Obligations.GetpayOfWrongContentLengthIsContentLen : Prop :=
  ∀ (s : State) (p rest : List Byte), s.st = .haveMsgLen → s.need = s.msgLen → s.rxq = p ++ rest →
    p.length = s.msgLen.toNat → verify s.msgId s.msgLen p = true → s.msgId = 0x01#8 → s.msgLen ≠ 0x0E#8 →
    ∃ t, exec .getpay s = .next t ∧ FrameEnded s t p rest (.nothing .contentLen none)

/-- R161, performed by GETPAY: theta, x, y on the wire, each little-endian, handed over as (x, y, theta). -/
def Obligations.GetpayOfPoseFrameIsItsPose : Prop :=
  ∀ (s : State) (t0 t1 t2 t3 x0 x1 x2 x3 y0 y1 y2 y3 lo hi : Byte) (rest : List Byte),
    s.st = .haveMsgLen → s.need = s.msgLen → s.msgId = 0x01#8 → s.msgLen = 0x0E#8 →
    s.rxq = [t0, t1, t2, t3, x0, x1, x2, x3, y0, y1, y2, y3, lo, hi] ++ rest →
    verify 0x01#8 0x0E#8 [t0, t1, t2, t3, x0, x1, x2, x3, y0, y1, y2, y3, lo, hi] = true →
    ∃ t, exec .getpay s = .next t ∧
      FrameEnded s t [t0, t1, t2, t3, x0, x1, x2, x3, y0, y1, y2, y3, lo, hi] rest
        (.message 0x01#8 (.pose
          (BitVec.ofNat 32 (x0.toNat + 2 ^ 8 * x1.toNat + 2 ^ 16 * x2.toNat + 2 ^ 24 * x3.toNat))
          (BitVec.ofNat 32 (y0.toNat + 2 ^ 8 * y1.toNat + 2 ^ 16 * y2.toNat + 2 ^ 24 * y3.toNat))
          (BitVec.ofNat 32 (t0.toNat + 2 ^ 8 * t1.toNat + 2 ^ 16 * t2.toNat + 2 ^ 24 * t3.toNat))))

/-- R188, with R189: every path of GETPAY, success included, does exactly `ST <- Idle`, `NEED <- 1`, consumes exactly
`LEN` bytes, leaves `ID` and `LEN` and all of `PBUF` beyond the payload as they are, and hands over one result. -/
def Obligations.GetpayAlwaysEndsTheFrame : Prop :=
  ∀ (s : State) (p rest : List Byte), s.st = .haveMsgLen → s.need = s.msgLen → s.rxq = p ++ rest →
    p.length = s.msgLen.toNat →
    decode (stepWord s) = .instr .getpay ∧ ∃ t r, exec .getpay s = .next t ∧ FrameEnded s t p rest r

/-! ## The payload decoder -/

/-- R161, the operation by itself, where the payload is in `PBUF` and verifies (by itself it is the model's own step,
log 7). -/
def Obligations.PoseHandsOverThePose : Prop :=
  ∀ (s : State) (t0 t1 t2 t3 x0 x1 x2 x3 y0 y1 y2 y3 lo hi : Byte),
    s.msgId = 0x01#8 → s.msgLen = 0x0E#8 →
    Memory.readBytes s.pbuf 0 14 = some [t0, t1, t2, t3, x0, x1, x2, x3, y0, y1, y2, y3, lo, hi] →
    verify 0x01#8 0x0E#8 [t0, t1, t2, t3, x0, x1, x2, x3, y0, y1, y2, y3, lo, hi] = true →
    decode (frameWord s) = .instr .pose ∧
      exec .pose s = .next { s with results := s.results ++ [.message 0x01#8 (.pose
        (BitVec.ofNat 32 (x0.toNat + 2 ^ 8 * x1.toNat + 2 ^ 16 * x2.toNat + 2 ^ 24 * x3.toNat))
        (BitVec.ofNat 32 (y0.toNat + 2 ^ 8 * y1.toNat + 2 ^ 16 * y2.toNat + 2 ^ 24 * y3.toNat))
        (BitVec.ofNat 32 (t0.toNat + 2 ^ 8 * t1.toNat + 2 ^ 16 * t2.toNat + 2 ^ 24 * t3.toNat)))] }

/-- 42_payload_decoder.md section 2 and D9: POSE.BADLEN by itself. -/
def Obligations.PoseBadlenHandsOverContentLen : Prop :=
  ∀ (s : State) (p : List Byte), s.msgId = 0x01#8 → s.msgLen ≠ 0x0E#8 →
    Memory.readBytes s.pbuf 0 s.msgLen.toNat = some p → verify s.msgId s.msgLen p = true →
    decode (frameWord s) = .instr (.poseBadlen s.msgLen) ∧
      exec (.poseBadlen s.msgLen) s = .next { s with results := s.results ++ [.nothing .contentLen none] }

/-- R162: UNKNOWN by itself; the content is not looked at and nothing but the result changes. -/
def Obligations.UnknownHandsOverTheId : Prop :=
  ∀ (s : State) (p : List Byte), s.msgId ≠ 0x01#8 →
    Memory.readBytes s.pbuf 0 s.msgLen.toNat = some p → verify s.msgId s.msgLen p = true →
    decode (frameWord s) = .instr (.unknown s.msgId s.msgLen) ∧
      exec (.unknown s.msgId s.msgLen) s =
        .next { s with results := s.results ++ [.nothing .unknownId (some s.msgId)] }

/-- 30_encoding.md section 5 (R88): once the checksum has passed, GETPAY does what the operation that the decoder reads
from `{ID, LEN}` does on the state that GETPAY leaves. -/
def Obligations.GetpayPerformsTheSelectedOutcome : Prop :=
  ∀ (s : State) (p rest : List Byte) (i : Instr), s.st = .haveMsgLen → s.need = s.msgLen → s.rxq = p ++ rest →
    p.length = s.msgLen.toNat → verify s.msgId s.msgLen p = true → decode (frameWord s) = .instr i →
    exec .getpay s = exec i (s.afterPayload p rest)

/-! ## POLL -/

/-- R139, the loop: after what the transport appends before the sampling, too few bytes give NOT_ENOUGH and change
nothing; a GETPAY ends the POLL; any other step is followed by the rest of the loop. -/
def Obligations.PollIsTheDrivingLoop : Prop :=
  ∀ s : State, needOk s = true → decode ⟨.call, 0b01#16, 0#8⟩ = .instr .poll ∧
    ((arrive s).rxq.length < s.need.toNat →
      exec .poll s = .next { arrive s with results := s.results ++ [.nothing .notEnough none] }) ∧
    (s.need.toNat ≤ (arrive s).rxq.length → ∀ i, decode (stepWord (arrive s)) = .instr i →
      (i = .getpay → exec .poll s = exec .getpay (arrive s)) ∧
      (i ≠ .getpay → ∃ u, exec i (arrive s) = .next u ∧ exec .poll s = exec .poll u))

/-- R181: in every state, a POLL that finds fewer than `NEED` bytes, those just appended counted, returns NOT_ENOUGH and
changes no state of the core; the transport's bytes stay queued. -/
def Obligations.PollWithTooFewBytesChangesNothing : Prop :=
  ∀ s : State, (s.rxq ++ s.arrivals.headD []).length < s.need.toNat →
    exec .poll s = .next { s with
      rxq := s.rxq ++ s.arrivals.headD [], arrivals := s.arrivals.tail,
      results := s.results ++ [.nothing .notEnough none] }

/-- 41_frame_assembler.md section 5 (R140, R141, R144): a POLL returns, with exactly one result. That it always
returns rests on log 4: `arrivals` is a finite list, which is the premise of R217 (fed without end, a POLL need not
return, R144). In the model's words: it has taken some bytes from the head of what was to come and no others; it
leaves the checksum outputs and the requests alone; if a frame was ended the core is in `Idle` with `NEED` 1, and if
not, too few bytes are left for the next step. -/
def Obligations.PollReturnsExactlyOneResult : Prop :=
  ∀ s : State, needOk s = true →
    ∃ t r k, exec .poll s = .next t ∧ t.results = s.results ++ [r] ∧ k ≤ s.stream.length ∧
      t.stream = s.stream.drop k ∧ needOk t = true ∧ t.sums = s.sums ∧ t.inputs = s.inputs ∧
      (r = .nothing .notEnough none → t.rxq.length < t.need.toNat) ∧
      (r ≠ .nothing .notEnough none → t.st = .idle ∧ t.need = 1#8)

/-- 60_exceptions.md sections 2 and 3 (R187, R189; the order and two of the causes are the spec's D8, D9, D17, log 17;
that an unregistered id ends the POLL is D7, log 15): from `Idle`, a POLL whose queue begins with a frame consumes
exactly the frame's `4 + LEN` bytes and reports the first of the four checks that fails, or the message. Bytes that
arrive meanwhile stand behind what is left. -/
def Obligations.PollOnAFrameGivesItsVerdict : Prop :=
  ∀ (s : State) (id len : Byte) (p rest : List Byte), s.st = .idle → s.need = 1#8 →
    p.length = len.toNat → s.rxq = [0xFF#8, 0xFF#8, id, len] ++ p ++ rest →
    ∃ t, exec .poll s = .next t ∧ t.st = .idle ∧ t.need = 1#8 ∧
      t.rxq = rest ++ (s.arrivals.take 5).flatten ∧ t.arrivals = s.arrivals.drop 5 ∧
      t.results = s.results ++ [
        if len.toNat < 2 then .nothing .badLen none
        else if verify id len p = false then .nothing .cksum none
        else if id ≠ 0x01#8 then .nothing .unknownId (some id)
        else if h : (p.take (p.length - 2)).length = 12 then .message id (decodePose (p.take (p.length - 2)) h)
        else .nothing .contentLen none]

/-- 42_payload_decoder.md section 3 (R165, D11): every three patterns come out as they went in, NaN payloads and the
sign of zero included. -/
def Obligations.PoseFramePatternsComeOutUnchanged : Prop :=
  ∀ (s : State) (theta x y : U32) (rest : List Byte), s.st = .idle → s.need = 1#8 → s.arrivals = [] →
    s.rxq = poseFrame theta x y ++ rest →
    ∃ t, exec .poll s = .next t ∧ t.st = .idle ∧ t.need = 1#8 ∧ t.rxq = rest ∧
      t.results = s.results ++ [.message 0x01#8 (.pose x y theta)]

/-- 00_scope.md section 4 and 42_payload_decoder.md section 4 (R8, R167): under ANY registry with no id twice, a framed
content of a registered kind is decoded by that kind's decoder; nothing of the assembler changes. -/
def Obligations.AnyRegisteredKindIsDecoded : Prop :=
  ∀ (cfg : Config) (e : Entry) (s : State) (c rest : List Byte) (h : c.length = e.contentLen),
    cfg.RegistryOk → e ∈ cfg.registry → s.st = .idle → s.need = 1#8 → s.arrivals = [] →
    s.rxq = mkFrame e.id c ++ rest →
    ∃ t, pollWith cfg s = .next t ∧ t.st = .idle ∧ t.need = 1#8 ∧ t.rxq = rest ∧
      t.results = s.results ++ [.message e.id (e.decode c h)]

/-- 41_frame_assembler.md section 6 (R147; that each such frame ends its POLL is the spec's D7, D8 and D9 for an
unregistered id, a malformed length and a wrong content length: logs 15 and 17): whatever the first frame is (good, of
an unregistered id, corrupted, of a malformed length or of a wrong content length), exactly its bytes are consumed by
the first POLL and the second POLL gives the message of the good frame right behind it. -/
def Obligations.AGoodFrameBehindAnyFrameIsFound : Prop :=
  ∀ (s : State) (id len : Byte) (p c rest : List Byte) (h : c.length = 12), s.st = .idle → s.need = 1#8 →
    s.arrivals = [] → p.length = len.toNat →
    s.rxq = [0xFF#8, 0xFF#8, id, len] ++ p ++ (mkFrame 0x01#8 c ++ rest) →
    ∃ t u r, exec .poll s = .next t ∧ t.rxq = mkFrame 0x01#8 c ++ rest ∧ t.results = s.results ++ [r] ∧
      r ≠ .nothing .notEnough none ∧
      exec .poll t = .next u ∧ u.st = .idle ∧ u.need = 1#8 ∧ u.rxq = rest ∧
      u.results = s.results ++ [r, .message 0x01#8 (decodePose c h)]

/-- 41_frame_assembler.md section 6 (R145): the bytes of a Pose frame, fed to an idle core in any pieces with any
POLLs between them and at least one behind the last piece, give its message exactly once, every other POLL gives
NOT_ENOUGH, and the core ends in `Idle` with an empty queue. (Feeds and POLLs as a list of inputs: log 5.) -/
def Obligations.ChunkingOfAFrameDoesNotMatter : Prop :=
  ∀ (s : State) (c : List Byte) (h : c.length = 12) (pre : List Input),
    s.st = .idle → s.need = 1#8 → s.rxq = [] → s.arrivals = [] →
    (∀ inp ∈ pre, inp.isFeedOrPoll = true) → fedBytes pre = mkFrame 0x01#8 c → s.inputs = pre ++ [pollReq] →
    ∃ t rs, stepMany (pre.length + 1) s = .next t ∧ t.st = .idle ∧ t.need = 1#8 ∧ t.rxq = [] ∧ t.inputs = [] ∧
      t.results = s.results ++ rs ∧ rs.length = (pre.filter (· == pollReq)).length + 1 ∧
      rs.filter (· != .nothing .notEnough none) = [.message 0x01#8 (decodePose c h)]

/-- 41_frame_assembler.md section 6 (R145, its general form, derived there): a POLL that ran dry, then more bytes,
then a POLL, gives what one POLL on all the bytes gives; only the NOT_ENOUGH in between differs. -/
def Obligations.APollThatRanDryLosesNothing : Prop :=
  ∀ (s t : State) (bs : List Byte), needOk s = true → s.arrivals = [] → exec .poll s = .next t →
    t.results = s.results ++ [.nothing .notEnough none] →
    ∃ (u : State) (r : PollResult), exec .poll (append bs s) = .next { u with results := s.results ++ [r] } ∧
      exec .poll (append bs t) = .next { u with results := t.results ++ [r] }

/-- D12 (with R145): a POLL during which bytes arrive (`arrivals`, log 4), and which ends a frame, gives what a POLL
gives that finds all those bytes in the queue from the start. -/
def Obligations.ArrivalsDuringAPollDoNotMatter : Prop :=
  ∀ (s t : State) (r : PollResult), needOk s = true → exec .poll s = .next t → t.results = s.results ++ [r] →
    r ≠ .nothing .notEnough none →
    exec .poll { s with rxq := s.stream, arrivals := [] } = .next { t with rxq := t.stream, arrivals := [] }

/-- 41_frame_assembler.md section 6 (R146): on bytes with no two consecutive `0xFF`, fed in any pieces with any POLLs,
no POLL ever reports anything but NOT_ENOUGH, and `ST` stays within `Idle` and `SawFirstSync`. -/
def Obligations.NoiseWithoutASyncPairNeverReports : Prop :=
  ∀ (s : State), s.st = .idle → s.need = 1#8 → s.rxq = [] → s.arrivals = [] →
    (∀ inp ∈ s.inputs, inp.isFeedOrPoll = true) → noSyncPair (fedBytes s.inputs) = true →
    ∀ k ≤ s.inputs.length, ∃ t rs, stepMany k s = .next t ∧ t.results = s.results ++ rs ∧
      (∀ r ∈ rs, r = .nothing .notEnough none) ∧ (t.st = .idle ∨ t.st = .sawFirstSync)

/-- 60_exceptions.md section 3 (R192, derived there): once two sync bytes were seen, 257 buffered bytes are always
enough for ONE POLL to end the frame and return to `Idle`. That one POLL ends it also for an unregistered id is the
spec's D7 (log 15); with the other reading the POLL would go on. -/
def Obligations.EnoughBytesAlwaysBringTheCoreBackToIdle : Prop :=
  ∀ s : State, needOk s = true → (s.st = .sawSecondSync ∨ s.st = .haveMsgId ∨ s.st = .haveMsgLen) →
    257 ≤ s.rxq.length →
    ∃ t r, exec .poll s = .next t ∧ t.results = s.results ++ [r] ∧ r ≠ .nothing .notEnough none ∧
      t.st = .idle ∧ t.need = 1#8

/-! ## RESET and the machine as a whole -/

/-- 70_reset_and_hazards.md section 1 (R210, D15, D16): RESET gives `ST = Idle`, `NEED = 1`, does not touch `RXQ`,
hands nothing over. What `ID`, `LEN`, `PBUF`, `A`, `B` hold afterwards is not stated. -/
def Obligations.ResetGivesIdleAndNeedOneAndKeepsTheQueue : Prop :=
  decode ⟨.call, 0b10#16, 0#8⟩ = .instr .reset ∧
    ∀ s : State, ∃ t, exec .reset s = .next t ∧ t.st = .idle ∧ t.need = 1#8 ∧ t.rxq = s.rxq ∧
      t.results = s.results ∧ t.sums = s.sums ∧ t.inputs = s.inputs ∧ t.arrivals = s.arrivals

/-- 10_state.md section 2 (R33, R34): the state after reset is `Idle` with `NEED = 1`, and meets the invariant. -/
def Obligations.ResetStateIsIdleAndMeetsTheInvariant : Prop :=
  State.reset.st = .idle ∧ State.reset.need = 1#8 ∧ State.reset.Inv

/-- 10_state.md section 2 (R22, R34): from EVERY state that meets the invariant (`NEED` obeys R22, `PBUF` is in
canonical form), a step to a next state keeps it. -/
def Obligations.EveryStepKeepsTheInvariant : Prop :=
  ∀ s t : State, s.Inv → step s = .next t → t.Inv

/-- 10_state.md section 2 (R21, R22, R23, R24, R26, R27, R30, R32; RESET leaves five registers unspecified, R210):
which operations may change what: `ST`, `RXQ`, `NEED`, `ID`, `LEN`, `PBUF`, `A` and `B`, and what is handed out. POLL
performs the assembler's steps, so it may change what they may; nothing but CK.RES hands out a sum, and no operation
touches the requests. -/
def Obligations.OnlyTheNamedOperationsWriteEachRegister : Prop :=
  ∀ (i : Instr) (s t : State), exec i s = .next t →
    (t.st ≠ s.st → i = .idleSync ∨ i = .sync1Sync ∨ (∃ b, i = .sync1Miss b) ∨ (∃ b, i = .getid b) ∨
      (∃ b, i = .getlen b) ∨ i = .getpay ∨ i = .poll ∨ i = .reset) ∧
    (t.rxq ≠ s.rxq → (encode i).fmt = .step ∨ i = .poll) ∧
    (t.need ≠ s.need → (∃ b, i = .getlen b) ∨ i = .getpay ∨ i = .poll ∨ i = .reset) ∧
    (t.msgId ≠ s.msgId → (∃ b, i = .getid b) ∨ i = .poll ∨ i = .reset) ∧
    (t.msgLen ≠ s.msgLen → (∃ b, i = .getlen b) ∨ i = .poll ∨ i = .reset) ∧
    (t.pbuf ≠ s.pbuf → i = .getpay ∨ i = .poll ∨ i = .reset) ∧
    (t.a ≠ s.a ∨ t.b ≠ s.b → i = .ckClr ∨ (∃ d, i = .ckAbs d) ∨ i = .getpay ∨ i = .poll ∨ i = .reset) ∧
    (t.sums ≠ s.sums → i = .ckRes) ∧
    (t.results ≠ s.results → i = .getpay ∨ i = .pose ∨ (∃ l, i = .poseBadlen l) ∨ (∃ k l, i = .unknown k l) ∨
      i = .poll) ∧
    t.inputs = s.inputs ∧
    (t.arrivals ≠ s.arrivals → i = .poll)

/-- 10_state.md section 2 (R28, R55): no operation un-reads or reorders a byte: what is still to come afterwards is
what was to come before, less some bytes at its head. An operation other than POLL takes exactly the bytes it reads:
`NEED` for an assembler step that is enabled, none otherwise. (What a POLL takes is what its steps take:
PollIsTheDrivingLoop.) -/
def Obligations.TheStreamNeverMovesBackwards : Prop :=
  ∀ (i : Instr) (s t : State), exec i s = .next t →
    (∃ k, k ≤ s.stream.length ∧ t.stream = s.stream.drop k) ∧
    (i ≠ .poll → t.rxq = s.rxq.drop (bytesRead i s) ∧ t.arrivals = s.arrivals)

/-- A step runs the decoded operation: of a CALL word (R91), of a CKOP word (R89), of the STEP word `{ST, RXQ[0]}` when
that step is enabled (R86, R130), of the FRAME word `{ID, LEN}` (R88). The step takes the input and adds nothing else.
(`assemble` and `dispatch` are the model's own inputs: log 7.) -/
def Obligations.AStepRunsTheDecodedOperation : Prop :=
  ∀ (s : State) (rest : List Input) (i : Instr),
    (∀ csel, s.inputs = .call csel :: rest → decode ⟨.call, csel.setWidth 16, 0#8⟩ = .instr i →
      step s = exec i { s with inputs := rest }) ∧
    (∀ op data, s.inputs = .ckop op data :: rest → decode ⟨.ckop, op.setWidth 16, data⟩ = .instr i →
      step s = exec i { s with inputs := rest }) ∧
    (s.inputs = .assemble :: rest → s.need.toNat ≤ s.rxq.length → decode (stepWord s) = .instr i →
      step s = exec i { s with inputs := rest }) ∧
    (s.inputs = .dispatch :: rest → decode (frameWord s) = .instr i →
      step s = exec i { s with inputs := rest })

/-- 20_memory.md section 2 (R51), 30_encoding.md section 5 (R91), 41_frame_assembler.md section 2 (R130): the steps
that run no operation: a feed appends at the tail of `RXQ`; no input, no request (`csel = 00`) and an assembler step
that is not enabled change nothing. That what happens next is taken from a list of inputs is the model's choice (log
5), and the input `assemble`, one step outside a POLL, is the model's own: the hardware has none (log 7). -/
def Obligations.TheOtherStepsFeedOrRest : Prop :=
  ∀ (s : State) (rest : List Input),
    (s.inputs = [] → step s = .next s) ∧
    (∀ bs, s.inputs = .feed bs :: rest → step s = .next { s with inputs := rest, rxq := s.rxq ++ bs }) ∧
    (s.inputs = .call 0#2 :: rest → step s = .next { s with inputs := rest }) ∧
    (s.inputs = .assemble :: rest → s.rxq.length < s.need.toNat → step s = .next { s with inputs := rest })

/-- 30_encoding.md sections 5 and 6 (R90, R91): with `rst` and `poll_req` both asserted only RESET is performed; the
reserved `ck_op = 0b11` is refused, whatever the data (U4; that the machine then stops is the model's choice, log 8). -/
def Obligations.ResetWinsAndTheReservedCkOpIsRefused : Prop :=
  ∀ (s : State) (rest : List Input),
    (s.inputs = .call 3#2 :: rest → step s = exec .reset { s with inputs := rest }) ∧
    (∀ data, s.inputs = .ckop 3#2 data :: rest → step s = .refused .reservedCkOp)

/-- 10_state.md section 2 and 93_implementation_defined.md U3 (R34, R138; that the machine then stops is the model's
choice, log 8): a well-formed assembler step is refused in a state whose `NEED` breaks R22, in a state of another row,
and where another byte is at the head of the queue. -/
def Obligations.AStepThatIsNotSelectedIsRefused : Prop :=
  ∀ (i : Instr) (s : State), (encode i).fmt = .step → i.wellFormed = true →
    (needOk s = false ∨
      (s.need.toNat ≤ s.rxq.length ∧ decode (stepWord s) ≠ .instr i) ∨
      (∀ b, decode ⟨.step, stepSel s.st.code b, 0#8⟩ ≠ .instr i)) →
    exec i s = .refused .notSelected

/-- 42_payload_decoder.md section 2 (the preconditions of R161, R162, R164; that the machine stops without them is the
model's choice, log 8): a well-formed message-level outcome is refused where `{ID, LEN}` does not select it, and where
`PBUF` does not hold a payload that verifies. -/
def Obligations.AnOutcomeThatDoesNotApplyIsRefused : Prop :=
  ∀ (i : Instr) (s : State), (encode i).fmt = .frame → i.wellFormed = true →
    (decode (frameWord s) ≠ .instr i ∨
      (∀ p, Memory.readBytes s.pbuf 0 s.msgLen.toNat = some p → verify s.msgId s.msgLen p = false)) →
    exec i s = .refused .notSelected

/-- 93_implementation_defined.md U3 (R34; the model's choice, log 8): a POLL that would perform a step is refused in a
state whose `NEED` breaks R22, a state that cannot arise. -/
def Obligations.PollInAnImpossibleStateIsRefused : Prop :=
  ∀ s : State, needOk s = false → (arrive s).need.toNat ≤ (arrive s).rxq.length →
    exec .poll s = .refused .notSelected

/-- 60_exceptions.md, first paragraph: the core has no traps. 20_memory.md section 1 (R57): the one index space is
`PBUF`'s 0..254. No step, from any state, ends in a fault. The two faults are the model's own (log 3): an index
outside `PBUF`, and a byte of `PBUF` that nothing has written. -/
def Obligations.NoStepEverFaults : Prop :=
  ∀ (s : State) (f : Fault), step s ≠ .fault f

/-- 41_frame_assembler.md section 5 (R139), 60_exceptions.md section 3 (R190), 30_encoding.md section 5 (R89, R91):
from every state that meets the invariant, whatever the host requests and whatever the transport appends, the step
completes. That a POLL returns rests on log 4 (`arrivals` is a finite list, R217's premise); the input `assemble`,
named among the requests, is the model's own (log 7). -/
def Obligations.HostRequestsAlwaysComplete : Prop :=
  ∀ (s : State) (inp : Input) (rest : List Input), s.Inv → s.inputs = inp :: rest →
    ((∃ bs, inp = .feed bs) ∨ (∃ csel, inp = .call csel) ∨ (∃ op data, inp = .ckop op data ∧ op ≠ 3#2) ∨
      inp = .assemble) →
    ∃ t, step s = .next t ∧ t.inputs = rest ∧ t.Inv

/-! ## Encoding -/

/-- 30_encoding.md section 5: decoding an encoded well-formed operation gives it back, with every operand at every
value. -/
def Obligations.DecodeOfEncodeIsTheOperation : Prop :=
  ∀ i : Instr, i.wellFormed = true → decode (encode i) = .instr i

/-- 30_encoding.md section 5 (R86, R88, D24): among the rows of a format that apply to a selector, the decoder takes one
with the most mask bits. -/
def Obligations.TheRowWithMostMaskBitsWins : Prop :=
  ∀ (w : OpWord) (r' : Row Instr), w.sel.toNat < 2 ^ w.fmt.width → r' ∈ rowsOf w.fmt → r'.applies w = true →
    ∃ r ∈ rowsOf w.fmt, r.applies w = true ∧ decode w = .instr (r.build w) ∧ maskBits r'.mask ≤ maskBits r.mask

/-- Words written out from 30_encoding.md R86, R88, R89, R91, one or two for each format. -/
def Obligations.WordsOfTheTableDecodeToTheirRows : Prop :=
  decode ⟨.ckop, 0b01#16, 0x80#8⟩ = .instr (.ckAbs 0x80#8) ∧
  decode ⟨.step, 0b000_11111111#16, 0#8⟩ = .instr .idleSync ∧
  decode ⟨.step, 0b001_00000000#16, 0#8⟩ = .instr (.sync1Miss 0x00#8) ∧
  decode ⟨.step, 0b011_00001110#16, 0#8⟩ = .instr (.getlen 0x0E#8) ∧
  decode ⟨.frame, 0b00000001_00001110#16, 0#8⟩ = .instr .pose ∧
  decode ⟨.frame, 0b00000111_00000100#16, 0#8⟩ = .instr (.unknown 0x07#8 0x04#8) ∧
  decode ⟨.call, 0b01#16, 0#8⟩ = .instr .poll ∧
  decode ⟨.call, 0b11#16, 0#8⟩ = .instr .reset ∧
  decode ⟨.ckop, 0b11#16, 0#8⟩ = .reject (.reserved .ckop) ∧
  decode ⟨.step, 0b101_00000000#16, 0#8⟩ = .reject (.reserved .step)

/-! ## The FRAME table of any registry, and noise as an invariant -/

/-- 30_encoding.md section 5 (R88, D9, D24) and 42_payload_decoder.md section 4 (R167): the FRAME rows generated from
ANY registry with no id twice: a registered id with its own content length selects its decoder, a registered id with
any other length its bad-length row, every other id UNKNOWN. The decoder of this hardware reads the rows of the
default registry. -/
def Obligations.FrameRowsAreThoseOfTheRegistry : Prop :=
  (∀ (cfg : Config) (id len d : Byte), cfg.RegistryOk →
    (∀ e ∈ cfg.registry, e.id = id → len.toNat = e.contentLen + 2 →
      decodeFrame cfg ⟨.frame, frameSel id len, d⟩ = .message id) ∧
    (∀ e ∈ cfg.registry, e.id = id → len.toNat ≠ e.contentLen + 2 →
      decodeFrame cfg ⟨.frame, frameSel id len, d⟩ = .badLen id len) ∧
    ((∀ e ∈ cfg.registry, e.id ≠ id) → decodeFrame cfg ⟨.frame, frameSel id len, d⟩ = .unknown id len)) ∧
  ∀ w : OpWord, w.fmt = .frame → decode w = .instr (decodeFrame hardware w).toInstr

/-- 30_encoding.md section 5 (R88) with 41_frame_assembler.md section 3 (R137): under ANY registry with no id twice,
once the length guard and the checksum have passed, GETPAY's lookup and length test give the outcome that the
generated FRAME rows select from `{ID, LEN}`, on the state that GETPAY leaves. -/
def Obligations.GetpayPerformsTheGeneratedRow : Prop :=
  ∀ (cfg : Config) (s : State) (p rest : List Byte), cfg.RegistryOk → s.st = .haveMsgLen → s.need = s.msgLen →
    s.rxq = p ++ rest → p.length = s.msgLen.toNat → verify s.msgId s.msgLen p = true →
    fireGetpay cfg s = fireFrame cfg (decodeFrame cfg (frameWord s)) (s.afterPayload p rest)

/-- 41_frame_assembler.md section 6 (R146), as an invariant that every step keeps: from EVERY state of pure noise,
reachable or not, a step gives a state of pure noise, and hands over nothing or NOT_ENOUGH. (The inputs as a list: log
5; nothing arrives inside a POLL, so that the order of the bytes is that of the feeds: log 4.) -/
def Obligations.NoiseStaysNoiseAtEveryStep : Prop :=
  ∀ s t : State, s.Noise → step s = .next t →
    t.Noise ∧ (t.results = s.results ∨ t.results = s.results ++ [.nothing .notEnough none])
end

