-- ==== Sys2Proof/Laws/State.lean ====
section
/-! SUPPORT. One lemma per field per update of the state, so that no later proof unfolds a record update. -/

namespace Sys2Proof.Machine

section Append
variable (bs : List Byte) (s : State)
@[simp] theorem append_st : (append bs s).st = s.st := rfl
@[simp] theorem append_need : (append bs s).need = s.need := rfl
@[simp] theorem append_msgId : (append bs s).msgId = s.msgId := rfl
@[simp] theorem append_msgLen : (append bs s).msgLen = s.msgLen := rfl
@[simp] theorem append_pbuf : (append bs s).pbuf = s.pbuf := rfl
@[simp] theorem append_a : (append bs s).a = s.a := rfl
@[simp] theorem append_b : (append bs s).b = s.b := rfl
@[simp] theorem append_rxq : (append bs s).rxq = s.rxq ++ bs := rfl
@[simp] theorem append_results : (append bs s).results = s.results := rfl
@[simp] theorem append_sums : (append bs s).sums = s.sums := rfl
@[simp] theorem append_inputs : (append bs s).inputs = s.inputs := rfl
@[simp] theorem append_arrivals : (append bs s).arrivals = s.arrivals := rfl
@[simp] theorem append_freeCtr : (append bs s).freeCtr = s.freeCtr := rfl
end Append

section EndFrame
variable (s : State)
@[simp] theorem endFrame_st : (endFrame s).st = .idle := rfl
@[simp] theorem endFrame_need : (endFrame s).need = 1#8 := rfl
@[simp] theorem endFrame_msgId : (endFrame s).msgId = s.msgId := rfl
@[simp] theorem endFrame_msgLen : (endFrame s).msgLen = s.msgLen := rfl
@[simp] theorem endFrame_pbuf : (endFrame s).pbuf = s.pbuf := rfl
@[simp] theorem endFrame_a : (endFrame s).a = s.a := rfl
@[simp] theorem endFrame_b : (endFrame s).b = s.b := rfl
@[simp] theorem endFrame_rxq : (endFrame s).rxq = s.rxq := rfl
@[simp] theorem endFrame_results : (endFrame s).results = s.results := rfl
@[simp] theorem endFrame_sums : (endFrame s).sums = s.sums := rfl
@[simp] theorem endFrame_inputs : (endFrame s).inputs = s.inputs := rfl
@[simp] theorem endFrame_arrivals : (endFrame s).arrivals = s.arrivals := rfl
@[simp] theorem endFrame_freeCtr : (endFrame s).freeCtr = s.freeCtr := rfl
end EndFrame

section Hand
variable (r : PollResult) (s : State)
@[simp] theorem hand_st : (hand r s).st = s.st := rfl
@[simp] theorem hand_need : (hand r s).need = s.need := rfl
@[simp] theorem hand_msgId : (hand r s).msgId = s.msgId := rfl
@[simp] theorem hand_msgLen : (hand r s).msgLen = s.msgLen := rfl
@[simp] theorem hand_pbuf : (hand r s).pbuf = s.pbuf := rfl
@[simp] theorem hand_a : (hand r s).a = s.a := rfl
@[simp] theorem hand_b : (hand r s).b = s.b := rfl
@[simp] theorem hand_rxq : (hand r s).rxq = s.rxq := rfl
@[simp] theorem hand_results : (hand r s).results = s.results ++ [r] := rfl
@[simp] theorem hand_sums : (hand r s).sums = s.sums := rfl
@[simp] theorem hand_inputs : (hand r s).inputs = s.inputs := rfl
@[simp] theorem hand_arrivals : (hand r s).arrivals = s.arrivals := rfl
@[simp] theorem hand_freeCtr : (hand r s).freeCtr = s.freeCtr := rfl
end Hand

section ScrambleSums
variable (s : State)
@[simp] theorem scrambleSums_st : (scrambleSums s).st = s.st := rfl
@[simp] theorem scrambleSums_need : (scrambleSums s).need = s.need := rfl
@[simp] theorem scrambleSums_msgId : (scrambleSums s).msgId = s.msgId := rfl
@[simp] theorem scrambleSums_msgLen : (scrambleSums s).msgLen = s.msgLen := rfl
@[simp] theorem scrambleSums_pbuf : (scrambleSums s).pbuf = s.pbuf := rfl
@[simp] theorem scrambleSums_rxq : (scrambleSums s).rxq = s.rxq := rfl
@[simp] theorem scrambleSums_results : (scrambleSums s).results = s.results := rfl
@[simp] theorem scrambleSums_sums : (scrambleSums s).sums = s.sums := rfl
@[simp] theorem scrambleSums_inputs : (scrambleSums s).inputs = s.inputs := rfl
@[simp] theorem scrambleSums_arrivals : (scrambleSums s).arrivals = s.arrivals := rfl
@[simp] theorem scrambleSums_freeCtr : (scrambleSums s).freeCtr = s.freeCtr + 2 := rfl
end ScrambleSums

section ScrambleAll
variable (s : State)
@[simp] theorem scrambleAll_st : (scrambleAll s).st = s.st := rfl
@[simp] theorem scrambleAll_need : (scrambleAll s).need = s.need := rfl
@[simp] theorem scrambleAll_pbuf : (scrambleAll s).pbuf = [] := rfl
@[simp] theorem scrambleAll_rxq : (scrambleAll s).rxq = s.rxq := rfl
@[simp] theorem scrambleAll_results : (scrambleAll s).results = s.results := rfl
@[simp] theorem scrambleAll_sums : (scrambleAll s).sums = s.sums := rfl
@[simp] theorem scrambleAll_inputs : (scrambleAll s).inputs = s.inputs := rfl
@[simp] theorem scrambleAll_arrivals : (scrambleAll s).arrivals = s.arrivals := rfl
@[simp] theorem scrambleAll_freeCtr : (scrambleAll s).freeCtr = s.freeCtr + 4 := rfl
end ScrambleAll

section DropInput
variable (s : State)
@[simp] theorem dropInput_st : (dropInput s).st = s.st := rfl
@[simp] theorem dropInput_need : (dropInput s).need = s.need := rfl
@[simp] theorem dropInput_msgId : (dropInput s).msgId = s.msgId := rfl
@[simp] theorem dropInput_msgLen : (dropInput s).msgLen = s.msgLen := rfl
@[simp] theorem dropInput_pbuf : (dropInput s).pbuf = s.pbuf := rfl
@[simp] theorem dropInput_a : (dropInput s).a = s.a := rfl
@[simp] theorem dropInput_b : (dropInput s).b = s.b := rfl
@[simp] theorem dropInput_rxq : (dropInput s).rxq = s.rxq := rfl
@[simp] theorem dropInput_results : (dropInput s).results = s.results := rfl
@[simp] theorem dropInput_sums : (dropInput s).sums = s.sums := rfl
@[simp] theorem dropInput_inputs : (dropInput s).inputs = s.inputs.tail := rfl
@[simp] theorem dropInput_arrivals : (dropInput s).arrivals = s.arrivals := rfl
@[simp] theorem dropInput_freeCtr : (dropInput s).freeCtr = s.freeCtr := rfl
end DropInput

/-- `arrive` changes the queue and the schedule only. -/
theorem arrive_eq (s : State) :
    arrive s = { s with rxq := s.rxq ++ s.arrivals.headD [], arrivals := s.arrivals.tail } := by
  rcases s with ⟨st, need, msgId, msgLen, pbuf, a, b, rxq, results, sums, inputs, arrivals, freeCtr⟩
  cases arrivals <;> simp [arrive]

section Arrive
variable (s : State)
@[simp] theorem arrive_st : (arrive s).st = s.st := by rw [arrive_eq]
@[simp] theorem arrive_need : (arrive s).need = s.need := by rw [arrive_eq]
@[simp] theorem arrive_msgId : (arrive s).msgId = s.msgId := by rw [arrive_eq]
@[simp] theorem arrive_msgLen : (arrive s).msgLen = s.msgLen := by rw [arrive_eq]
@[simp] theorem arrive_pbuf : (arrive s).pbuf = s.pbuf := by rw [arrive_eq]
@[simp] theorem arrive_a : (arrive s).a = s.a := by rw [arrive_eq]
@[simp] theorem arrive_b : (arrive s).b = s.b := by rw [arrive_eq]
@[simp] theorem arrive_rxq : (arrive s).rxq = s.rxq ++ s.arrivals.headD [] := by rw [arrive_eq]
@[simp] theorem arrive_results : (arrive s).results = s.results := by rw [arrive_eq]
@[simp] theorem arrive_sums : (arrive s).sums = s.sums := by rw [arrive_eq]
@[simp] theorem arrive_inputs : (arrive s).inputs = s.inputs := by rw [arrive_eq]
@[simp] theorem arrive_arrivals : (arrive s).arrivals = s.arrivals.tail := by rw [arrive_eq]
@[simp] theorem arrive_freeCtr : (arrive s).freeCtr = s.freeCtr := by rw [arrive_eq]

/-- Arriving loses no byte and reorders none. -/
@[simp] theorem arrive_stream : (arrive s).stream = s.stream := by
  rw [arrive_eq]
  cases h : s.arrivals <;> simp [State.stream, h]

/-- With nothing scheduled nothing arrives. -/
theorem arrive_nil (h : s.arrivals = []) : arrive s = s := by simp [arrive, h]
end Arrive

/-- What `deliver` answers when it answers next. -/
theorem deliver_next_cases {f : Fired} {t : State} (h : deliver f = .next t) :
    ∃ u o, f = .next (u, o) ∧ t = o.elim u (fun r => hand r u) := by
  unfold deliver at h
  split at h
  · exact ⟨_, _, rfl, by simpa using h.symm⟩
  · exact ⟨_, _, rfl, by simpa using h.symm⟩
  · simp at h
  · simp at h

end Sys2Proof.Machine
end

