-- ==== Sys2Proof/Laws/Memory.lean ====
section
/-! SUPPORT. The payload buffer: reads after writes, and every write keeps the canonical form. -/

namespace Sys2Proof.Machine

@[simp] theorem Memory.read_nil (a : Nat) : Memory.read [] a = none := rfl

theorem Memory.read_cons (k : Nat) (v : Byte) (m : Memory) (a : Nat) :
    Memory.read ((k, v) :: m) a = if k = a then some v else Memory.read m a := rfl

/-- An address below every listed one has no value. -/
theorem Memory.read_eq_none_of_lt (m : Memory) (a : Nat) (h : ∀ c ∈ m, a < c.1) : Memory.read m a = none := by
  induction m with
  | nil => rfl
  | cons c m ih =>
    obtain ⟨k, v⟩ := c
    have hk : a < k := h (k, v) (by simp)
    rw [Memory.read_cons, if_neg (by omega)]
    exact ih (fun d hd => h d (by simp [hd]))

/-- Reading the address just written. -/
@[simp] theorem Memory.read_write_same (m : Memory) (a : Nat) (v : Byte) :
    Memory.read (Memory.write m a v) a = some v := by
  induction m with
  | nil => simp [Memory.write, Memory.read_cons]
  | cons c m ih =>
    obtain ⟨k, w⟩ := c
    simp only [Memory.write]
    split_ifs with h1 h2
    · simp [Memory.read_cons]
    · simp [Memory.read_cons]
    · rw [Memory.read_cons, if_neg (by omega), ih]

/-- A write leaves every other address alone. -/
theorem Memory.read_write_other (m : Memory) (a a' : Nat) (v : Byte) (h : a' ≠ a) :
    Memory.read (Memory.write m a v) a' = Memory.read m a' := by
  induction m with
  | nil => simp [Memory.write, Memory.read_cons, Ne.symm h]
  | cons c m ih =>
    obtain ⟨k, w⟩ := c
    simp only [Memory.write]
    split_ifs with h1 h2
    · rw [Memory.read_cons, if_neg (Ne.symm h)]
    · subst h2
      rw [Memory.read_cons, Memory.read_cons, if_neg (Ne.symm h), if_neg (Ne.symm h)]
    · rw [Memory.read_cons, Memory.read_cons, ih]

theorem Memory.mem_write {m : Memory} {a : Nat} {v : Byte} {c : Host.Cell} (h : c ∈ Memory.write m a v) :
    c = (a, v) ∨ c ∈ m := by
  induction m with
  | nil => simpa [Memory.write] using h
  | cons d m ih =>
    obtain ⟨k, w⟩ := d
    simp only [Memory.write] at h
    split_ifs at h with h1 h2
    · simpa using h
    · rcases List.mem_cons.mp h with rfl | h
      · exact .inl rfl
      · exact .inr (by simp [h])
    · rcases List.mem_cons.mp h with rfl | h
      · exact .inr (by simp)
      · exact (ih h).imp id (fun h => by simp [h])

/-- One byte written inside the buffer keeps the canonical form. -/
theorem Memory.wf_write {m : Memory} {a : Nat} {v : Byte} (hm : Memory.wf m) (ha : a < pbufSize) :
    Memory.wf (Memory.write m a v) := by
  obtain ⟨hs, hb⟩ := hm
  refine ⟨?_, fun c hc => ?_⟩
  · induction m with
    | nil => simp [Memory.write]
    | cons d m ih =>
      obtain ⟨k, w⟩ := d
      rw [List.pairwise_cons] at hs
      simp only [Memory.write]
      split_ifs with h1 h2
      · refine List.pairwise_cons.mpr ⟨fun c hc => ?_, List.pairwise_cons.mpr hs⟩
        rcases List.mem_cons.mp hc with rfl | hc
        · exact h1
        · exact Nat.lt_trans h1 (hs.1 c hc)
      · subst h2
        exact List.pairwise_cons.mpr ⟨fun c hc => hs.1 c hc, hs.2⟩
      · refine List.pairwise_cons.mpr ⟨fun c hc => ?_, ih hs.2 (fun c hc => hb c (by simp [hc]))⟩
        rcases Memory.mem_write hc with rfl | hc
        · show k < a
          omega
        · exact hs.1 c hc
  · rcases Memory.mem_write hc with rfl | hc
    · exact ha
    · exact hb c hc

/-- Bytes written inside the buffer keep the canonical form. -/
theorem Memory.wf_writeBytes {bs : List Byte} {m : Memory} {a : Nat} (hm : Memory.wf m)
    (ha : a + bs.length ≤ pbufSize) : Memory.wf (Memory.writeBytes m a bs) := by
  induction bs generalizing m a with
  | nil => exact hm
  | cons b bs ih =>
    simp only [List.length_cons] at ha
    exact ih (Memory.wf_write hm (by omega)) (by omega)

/-- A write of several bytes leaves every address outside them alone. -/
theorem Memory.read_writeBytes_other (bs : List Byte) (m : Memory) (a a' : Nat)
    (h : a' < a ∨ a + bs.length ≤ a') : Memory.read (Memory.writeBytes m a bs) a' = Memory.read m a' := by
  induction bs generalizing m a with
  | nil => rfl
  | cons b bs ih =>
    simp only [List.length_cons] at h
    rw [Memory.writeBytes, ih _ _ (by omega), Memory.read_write_other _ _ _ _ (by omega)]

/-- Each byte of a write reads back. -/
theorem Memory.read_writeBytes (bs : List Byte) (m : Memory) (a i : Nat) (h : i < bs.length) :
    Memory.read (Memory.writeBytes m a bs) (a + i) = bs[i]? := by
  induction bs generalizing m a i with
  | nil => simp at h
  | cons b bs ih =>
    rw [Memory.writeBytes]
    cases i with
    | zero =>
      rw [Memory.read_writeBytes_other _ _ _ _ (by omega)]
      simp
    | succ i =>
      have := ih (Memory.write m a b) (a + 1) i (by simpa using h)
      rw [show a + (i + 1) = a + 1 + i by omega, this]
      simp

theorem Memory.readBytes_congr (m m' : Memory) (a n : Nat)
    (h : ∀ i < n, Memory.read m (a + i) = Memory.read m' (a + i)) :
    Memory.readBytes m a n = Memory.readBytes m' a n := by
  induction n generalizing a with
  | zero => rfl
  | succ n ih =>
    have h0 := h 0 (by omega)
    have hr := ih (a + 1) (fun i hi => by have := h (i + 1) (by omega); rwa [show a + 1 + i = a + (i + 1) by omega])
    simp only [Nat.add_zero] at h0
    simp only [Memory.readBytes, h0, hr]

/-- Reading the first bytes of what was written gives them back. -/
theorem Memory.readBytes_writeBytes (bs : List Byte) (m : Memory) (a n : Nat) (h : n ≤ bs.length) :
    Memory.readBytes (Memory.writeBytes m a bs) a n = some (bs.take n) := by
  induction bs generalizing m a n with
  | nil =>
    obtain rfl : n = 0 := by simpa using h
    rfl
  | cons b bs ih =>
    cases n with
    | zero => rfl
    | succ n =>
      have h1 := Memory.read_writeBytes (b :: bs) m a 0 (by simp)
      have h2 := ih (Memory.write m a b) (a + 1) n (by simpa using h)
      simp only [Nat.add_zero] at h1
      simp only [Memory.readBytes, h1]
      rw [Memory.writeBytes, h2]
      simp

theorem Memory.readBytes_length {m : Memory} {a n : Nat} {bs : List Byte}
    (h : Memory.readBytes m a n = some bs) : bs.length = n := by
  induction n generalizing a bs with
  | zero =>
    obtain rfl : bs = [] := by simpa [Memory.readBytes] using h.symm
    rfl
  | succ n ih =>
    rw [Memory.readBytes] at h
    split at h
    · next b bs' _ h2 =>
      obtain rfl := Option.some.inj h
      simp [ih h2]
    · exact absurd h (by simp)

/-- A shorter read of the same bytes gives their beginning. -/
theorem Memory.readBytes_take {m : Memory} {a n k : Nat} {bs : List Byte}
    (h : Memory.readBytes m a n = some bs) (hk : k ≤ n) : Memory.readBytes m a k = some (bs.take k) := by
  induction n generalizing a k bs with
  | zero =>
    obtain rfl : k = 0 := by omega
    rfl
  | succ n ih =>
    cases k with
    | zero => rfl
    | succ k =>
      rw [Memory.readBytes] at h
      split at h
      · next b bs' h1 h2 =>
        obtain rfl := Option.some.inj h
        simp [Memory.readBytes, h1, ih h2 (by omega : k ≤ n)]
      · exact absurd h (by simp)

/-- A read of written bytes inside the buffer. -/
theorem readPbuf_ok {s : State} {a n : Nat} {bs : List Byte} (h : Memory.readBytes s.pbuf a n = some bs)
    (hn : a + n ≤ pbufSize) : readPbuf s a n = .ok bs := by
  simp [readPbuf, h, Nat.not_lt.mpr hn]

/-- A read that gives bytes gives the buffer's. -/
theorem readBytes_of_readPbuf {s : State} {a n : Nat} {bs : List Byte} (h : readPbuf s a n = .ok bs) :
    Memory.readBytes s.pbuf a n = some bs ∧ a + n ≤ pbufSize := by
  unfold readPbuf at h
  split_ifs at h with h1
  split at h
  · next heq => exact ⟨by rw [heq]; simpa using h, by omega⟩
  · cases h

/-- A write inside the buffer succeeds. -/
theorem writePbuf_ok (s : State) (a : Nat) (bs : List Byte) (h : a + bs.length ≤ pbufSize) :
    writePbuf s a bs = .ok { s with pbuf := Memory.writeBytes s.pbuf a bs } := by
  simp [writePbuf, Nat.not_lt.mpr h]

end Sys2Proof.Machine
end

