-- ==== Sys2Proof/Laws/Checksum.lean ====
section
/-! SUPPORT. Byte order and the checksum unit. -/

namespace Sys2Proof.Machine

@[simp] theorem unle16_toNat (p q : Byte) : (unle16 p q).toNat = p.toNat + 256 * q.toNat := by
  have hp : p.toNat < 256 := p.isLt
  rw [unle16, BitVec.toNat_append, Nat.shiftLeft_eq, Nat.mul_comm,
    ← Nat.two_pow_add_eq_or_of_lt (by simpa using hp)]
  omega

theorem unle32_toNat (p q r s : Byte) :
    (unle32 p q r s).toNat = p.toNat + 256 * q.toNat + 65536 * r.toNat + 16777216 * s.toNat := by
  have hp : p.toNat < 256 := p.isLt
  have hq : q.toNat < 256 := q.isLt
  have hr : r.toNat < 256 := r.isLt
  simp only [unle32, BitVec.toNat_append, Nat.shiftLeft_eq]
  rw [Nat.mul_comm _ (2 ^ 8), ← Nat.two_pow_add_eq_or_of_lt (by simpa using hp),
    Nat.mul_comm _ (2 ^ 8), ← Nat.two_pow_add_eq_or_of_lt (by simpa using hq),
    Nat.mul_comm _ (2 ^ 8), ← Nat.two_pow_add_eq_or_of_lt (by simpa using hr)]
  omega

@[simp] theorem sumOf_toNat (ab : Byte × Byte) : (sumOf ab).toNat = 256 * ab.1.toNat + ab.2.toNat := by
  have h := unle16_toNat ab.2 ab.1
  rw [unle16] at h
  rw [sumOf, h]
  omega

/-- The two bytes of a 16-bit value, least significant first, make the value again. -/
theorem unle16_le16 (v : U16) : unle16 (v.extractLsb' 0 8) (v.extractLsb' 8 8) = v := by
  apply BitVec.eq_of_toNat_eq
  have hv : v.toNat < 65536 := v.isLt
  simp only [unle16_toNat, BitVec.extractLsb'_toNat, Nat.shiftRight_eq_div_pow]
  omega

/-- The checksum field determines both accumulators: `B` is its first byte, `A` its last. -/
theorem sumOf_eq_unle16 (ab : Byte × Byte) (lo hi : Byte) : sumOf ab = unle16 lo hi ↔ ab.1 = hi ∧ ab.2 = lo := by
  constructor
  · intro h
    have h := congrArg BitVec.toNat h
    rw [sumOf_toNat, unle16_toNat] at h
    have h1 : ab.1.toNat < 256 := ab.1.isLt
    have h2 : ab.2.toNat < 256 := ab.2.isLt
    have h3 : lo.toNat < 256 := lo.isLt
    have h4 : hi.toNat < 256 := hi.isLt
    exact ⟨BitVec.eq_of_toNat_eq (by omega), BitVec.eq_of_toNat_eq (by omega)⟩
  · rintro ⟨rfl, rfl⟩
    rfl

@[simp] theorem contentOf_append (c : List Byte) (lo hi : Byte) : contentOf (c ++ [lo, hi]) = c := by
  simp [contentOf, cksumLen]

@[simp] theorem cksumOf_append (c : List Byte) (lo hi : Byte) : cksumOf (c ++ [lo, hi]) = [lo, hi] := by
  simp [cksumOf, cksumLen]

/-- VERIFY on a content and a checksum field. -/
theorem verify_append (id len : Byte) (c : List Byte) (lo hi : Byte) :
    verify id len (c ++ [lo, hi]) = (compute (id :: len :: c) == unle16 lo hi) := by
  simp [verify, cksumLen]

theorem verify_short (id len : Byte) (p : List Byte) (h : p.length < 2) : verify id len p = false := by
  simp [verify, cksumLen, h]

/-- Every payload of two bytes or more is a content and a checksum field. -/
theorem payload_split (p : List Byte) (h : 2 ≤ p.length) :
    ∃ c lo hi, p = c ++ [lo, hi] ∧ c.length = p.length - 2 := by
  have hd : (p.drop (p.length - 2)).length = 2 := by simp; omega
  obtain ⟨lo, hi, he⟩ := List.length_eq_two.mp hd
  exact ⟨p.take (p.length - 2), lo, hi, by rw [← he, List.take_append_drop], by simp⟩

/-- The accumulators after a sequence, from any start: both laws of R116 before the reduction mod 256 is spelt out. -/
theorem foldl_absorb_fst (l : List Byte) (a b : Byte) : (l.foldl absorb (a, b)).1 = a + l.sum := by
  induction l generalizing a b with
  | nil => simp
  | cons d l ih => simp [absorb, ih, add_assoc]

end Sys2Proof.Machine
end

