-- ==== Sys2Proof/Laws/Decode.lean ====
section
/-! SUPPORT. What the selector tables say, one format at a time. -/

namespace Sys2Proof.Machine

theorem frameSel_toNat (id len : Byte) : (frameSel id len).toNat = 256 * id.toNat + len.toNat := by
  have h : len.toNat < 2 ^ 8 := len.isLt
  rw [frameSel, BitVec.toNat_append, Nat.shiftLeft_eq, Nat.mul_comm, ← Nat.two_pow_add_eq_or_of_lt h]

theorem frameSel_inj (id len id' len' : Byte) : frameSel id len = frameSel id' len' ↔ id = id' ∧ len = len' := by
  constructor
  · intro h
    have h := congrArg BitVec.toNat h
    rw [frameSel_toNat, frameSel_toNat] at h
    have h1 : len.toNat < 256 := len.isLt
    have h2 : len'.toNat < 256 := len'.isLt
    exact ⟨BitVec.eq_of_toNat_eq (by omega), BitVec.eq_of_toNat_eq (by omega)⟩
  · rintro ⟨rfl, rfl⟩
    rfl

theorem frameSel_and (id len id' len' : Byte) :
    frameSel id len &&& frameSel id' len' = frameSel (id &&& id') (len &&& len') := by
  unfold frameSel
  exact BitVec.and_append

@[simp] theorem frameSel_lo (id len d : Byte) : OpWord.lo ⟨.frame, frameSel id len, d⟩ = len := by
  apply BitVec.eq_of_toNat_eq
  have h : len.toNat < 256 := len.isLt
  simp only [OpWord.lo, BitVec.extractLsb'_toNat, frameSel_toNat, Nat.shiftRight_zero]
  omega

@[simp] theorem frameSel_hi (id len d : Byte) : OpWord.hi ⟨.frame, frameSel id len, d⟩ = id := by
  apply BitVec.eq_of_toNat_eq
  have h : len.toNat < 256 := len.isLt
  have h' : id.toNat < 256 := id.isLt
  simp only [OpWord.hi, BitVec.extractLsb'_toNat, frameSel_toNat, Nat.shiftRight_eq_div_pow]
  omega

/-- The STEP words of `Idle` (R86). -/
theorem decode_step_idle : ∀ b : Byte, decode ⟨.step, stepSel 0#3 b, 0#8⟩ =
    .instr (if b = syncByte then .idleSync else .idleSkip b) := by decide +kernel

/-- The STEP words of `SawFirstSync` (R86). -/
theorem decode_step_first : ∀ b : Byte, decode ⟨.step, stepSel 1#3 b, 0#8⟩ =
    .instr (if b = syncByte then .sync1Sync else .sync1Miss b) := by decide +kernel

/-- The STEP words of `SawSecondSync` (R86). -/
theorem decode_step_second : ∀ b : Byte, decode ⟨.step, stepSel 2#3 b, 0#8⟩ = .instr (.getid b) := by decide +kernel

/-- The STEP words of `HaveMsgId` (R86). -/
theorem decode_step_id : ∀ b : Byte, decode ⟨.step, stepSel 3#3 b, 0#8⟩ = .instr (.getlen b) := by decide +kernel

/-- The STEP words of `HaveMsgLen`: the head byte is ignored (R86). -/
theorem decode_step_len : ∀ b : Byte, decode ⟨.step, stepSel 4#3 b, 0#8⟩ = .instr .getpay := by decide +kernel

/-- The step selected by a state (R86). -/
theorem decode_stepWord (s : State) : decode (stepWord s) = .instr
    (match s.st with
    | .idle => if headByte s = syncByte then .idleSync else .idleSkip (headByte s)
    | .sawFirstSync => if headByte s = syncByte then .sync1Sync else .sync1Miss (headByte s)
    | .sawSecondSync => .getid (headByte s)
    | .haveMsgId => .getlen (headByte s)
    | .haveMsgLen => .getpay) := by
  unfold stepWord
  cases s.st
  · exact decode_step_idle _
  · exact decode_step_first _
  · exact decode_step_second _
  · exact decode_step_id _
  · exact decode_step_len _

/-- The FRAME rows that the default registry generates are those of R88's table. -/
theorem frameRows_eq : frameRows =
    [ ⟨.frame, 0xFFFF#16, 0x010E#16, fun _ => .pose⟩,
      ⟨.frame, 0xFF00#16, 0x0100#16, fun w => .poseBadlen w.lo⟩,
      ⟨.frame, 0x0000#16, 0x0000#16, fun w => .unknown w.hi w.lo⟩ ] := rfl

/-- When each generated row applies. -/
theorem messageRow_applies (e : Entry) (id len d : Byte) :
    (messageRow e).applies ⟨.frame, frameSel id len, d⟩ =
      decide (id = e.id ∧ len = BitVec.ofNat 8 (e.contentLen + 2)) := by
  have h : ∀ x : Byte, x &&& 0xFF#8 = x := by decide +kernel
  rw [Row.applies, messageRow, show (0xFFFF#16) = frameSel 0xFF#8 0xFF#8 by decide, Bool.eq_iff_iff]
  simp [frameSel_and, h, frameSel_inj]

theorem badLenRow_applies (e : Entry) (id len d : Byte) :
    (badLenRow e).applies ⟨.frame, frameSel id len, d⟩ = decide (id = e.id) := by
  have h : ∀ x : Byte, x &&& 0xFF#8 = x := by decide +kernel
  rw [Row.applies, badLenRow, show (0xFF00#16) = frameSel 0xFF#8 0x00#8 by decide, Bool.eq_iff_iff]
  simp [frameSel_and, h, frameSel_inj]

theorem unknownRow_applies (sel : BitVec 16) (d : Byte) : unknownRow.applies ⟨.frame, sel, d⟩ = true := by
  simp [Row.applies, unknownRow]

/-- The FRAME words (R88). -/
theorem decode_frame (id len : Byte) : decode ⟨.frame, frameSel id len, 0#8⟩ = .instr
    (if id = 0x01#8 then if len = 0x0E#8 then .pose else .poseBadlen len else .unknown id len) := by
  have hw : ¬ 2 ^ 16 ≤ (frameSel id len).toNat := Nat.not_le.mpr (frameSel id len).isLt
  have hand : ∀ x : Byte, x &&& 0xFF#8 = x := by decide +kernel
  have h1 : (frameSel id len &&& 0xFFFF#16 == 0x010E#16) = decide (id = 0x01#8 ∧ len = 0x0E#8) := by
    rw [show (0xFFFF#16) = frameSel 0xFF#8 0xFF#8 by decide, show (0x010E#16) = frameSel 0x01#8 0x0E#8 by decide,
      frameSel_and, hand, hand, Bool.eq_iff_iff]
    simp [frameSel_inj]
  have h2 : (frameSel id len &&& 0xFF00#16 == 0x0100#16) = decide (id = 0x01#8) := by
    rw [show (0xFF00#16) = frameSel 0xFF#8 0x00#8 by decide, show (0x0100#16) = frameSel 0x01#8 0x00#8 by decide,
      frameSel_and, hand, Bool.eq_iff_iff]
    simp [frameSel_inj]
  have h3 : (frameSel id len &&& 0x0000#16 == 0x0000#16) = true := by simp
  unfold decode
  rw [if_neg (by simpa [Format.width] using hw)]
  simp only [rowsOf, frameRows_eq, Row.applies, List.find?, h1, h2, h3, decide_true, Bool.true_and]
  by_cases hi : id = 0x01#8 <;> by_cases hl : len = 0x0E#8 <;> simp [hi, hl]

/-- The outcome selected by a state (R88). -/
theorem decode_frameWord (s : State) : decode (frameWord s) = .instr
    (if s.msgId = 0x01#8 then if s.msgLen = 0x0E#8 then .pose else .poseBadlen s.msgLen
      else .unknown s.msgId s.msgLen) :=
  decode_frame _ _

end Sys2Proof.Machine
end

