-- ==== Sys2Proof/Laws/Assembler.lean ====
section
/-! SUPPORT. What each assembler step does, said once: later proofs cite these and do not unfold the steps. -/

namespace Sys2Proof.Machine

/-- A byte step, selected and enabled. -/
theorem byteStep_next {want : AsmState} {k : Byte → State → Fired} {s : State} {b : Byte} {rest : List Byte}
    (hst : s.st = want) (hn : s.need = 1#8) (hq : s.rxq = b :: rest) :
    byteStep want k s = k b { s with rxq := rest } := by
  simp [byteStep, hst, hn, hq]

/-- A byte step in its state, not enabled: nothing happens. -/
theorem byteStep_empty {want : AsmState} {k : Byte → State → Fired} {s : State}
    (hst : s.st = want) (hn : s.need = 1#8) (hq : s.rxq = []) : byteStep want k s = .next (s, none) := by
  simp [byteStep, hst, hn, hq]

/-- Everything a byte step can do when it answers next. -/
theorem byteStep_cases {want : AsmState} {k : Byte → State → Fired} {s u : State} {o : Option PollResult}
    (h : byteStep want k s = .next (u, o)) :
    s.st = want ∧ s.need = 1#8 ∧
      (s.rxq = [] ∧ u = s ∧ o = none ∨ ∃ b rest, s.rxq = b :: rest ∧ k b { s with rxq := rest } = .next (u, o)) := by
  unfold byteStep at h
  split_ifs at h with hc
  simp only [not_or, ne_eq, not_not] at hc
  refine ⟨hc.1, hc.2, ?_⟩
  split at h
  · next hq =>
    simp only [Host.Outcome.next.injEq, Prod.mk.injEq] at h
    exact .inl ⟨hq, h.1.symm, h.2.symm⟩
  · next b rest hq => exact .inr ⟨b, rest, hq, h⟩

theorem whenByte_cases {ok : Bool} {s u : State} {o : Option PollResult} (h : whenByte ok s = .next (u, o)) :
    ok = true ∧ u = s ∧ o = none := by
  unfold whenByte at h
  split_ifs at h with hok
  simp only [Host.Outcome.next.injEq, Prod.mk.injEq] at h
  exact ⟨hok, h.1.symm, h.2.symm⟩

section Selected
variable (cfg : Config) {s : State} {b : Byte} {rest : List Byte}

/-- `Idle`: IDLE.SYNC or IDLE.SKIP. -/
theorem fireSelected_idle (hst : s.st = .idle) (hn : s.need = 1#8) (hq : s.rxq = b :: rest) :
    fireSelected cfg s =
      .next ({ s with rxq := rest, st := if b = syncByte then .sawFirstSync else .idle }, none) := by
  have hb : headByte s = b := by simp [headByte, hq]
  simp only [fireSelected, decode_stepWord, hst, hb]
  by_cases h : b = syncByte
  · simp [h, fireStep, fireIdleSync, byteStep_next hst hn hq, whenByte]
  · simp [h, fireStep, fireIdleSkip, byteStep_next hst hn hq, whenByte]

/-- `SawFirstSync`: SYNC1.SYNC or SYNC1.MISS. -/
theorem fireSelected_first (hst : s.st = .sawFirstSync) (hn : s.need = 1#8) (hq : s.rxq = b :: rest) :
    fireSelected cfg s =
      .next ({ s with rxq := rest, st := if b = syncByte then .sawSecondSync else .idle }, none) := by
  have hb : headByte s = b := by simp [headByte, hq]
  simp only [fireSelected, decode_stepWord, hst, hb]
  by_cases h : b = syncByte
  · simp [h, fireStep, fireSync1Sync, byteStep_next hst hn hq, whenByte]
  · simp [h, fireStep, fireSync1Miss, byteStep_next hst hn hq, whenByte]

/-- `SawSecondSync`: GETID. -/
theorem fireSelected_second (hst : s.st = .sawSecondSync) (hn : s.need = 1#8) (hq : s.rxq = b :: rest) :
    fireSelected cfg s = .next ({ s with rxq := rest, msgId := b, st := .haveMsgId }, none) := by
  have hb : headByte s = b := by simp [headByte, hq]
  simp [fireSelected, decode_stepWord, hst, hb, fireStep, fireGetid, byteStep_next hst hn hq, whenByte]

/-- `HaveMsgId`: GETLEN. -/
theorem fireSelected_id (hst : s.st = .haveMsgId) (hn : s.need = 1#8) (hq : s.rxq = b :: rest) :
    fireSelected cfg s = .next ({ s with rxq := rest, msgLen := b, need := b, st := .haveMsgLen }, none) := by
  have hb : headByte s = b := by simp [headByte, hq]
  simp [fireSelected, decode_stepWord, hst, hb, fireStep, fireGetlen, byteStep_next hst hn hq, whenByte]

/-- `HaveMsgLen`: GETPAY. -/
theorem fireSelected_len (hst : s.st = .haveMsgLen) : fireSelected cfg s = fireGetpay cfg s := by
  simp [fireSelected, decode_stepWord, hst, fireStep]

end Selected

section Getpay
variable (cfg : Config) {s : State} {p rest : List Byte}

/-- The unconditional part of GETPAY. -/
theorem takePayload_ok (hq : s.rxq = p ++ rest) (hp : p.length = s.msgLen.toNat) :
    takePayload s = .ok (s.afterPayload p rest) := by
  have hl : s.msgLen.toNat < 256 := s.msgLen.isLt
  have ht : s.rxq.take s.msgLen.toNat = p := by rw [hq, ← hp, List.take_left']; rfl
  have hd : s.rxq.drop s.msgLen.toNat = rest := by rw [hq, ← hp, List.drop_left']; rfl
  unfold takePayload rxRead
  simp only [ht, hd]
  rw [writePbuf_ok _ _ _ (by simp only [pbufSize]; omega)]
  rfl

theorem afterPayload_readBytes (s : State) (p rest : List Byte) (n : Nat) (h : n ≤ p.length) :
    Memory.readBytes (s.afterPayload p rest).pbuf 0 n = some (p.take n) :=
  Memory.readBytes_writeBytes p s.pbuf 0 n h

/-- Check 3 and check 4 on a payload that is in `PBUF`. -/
theorem frameOutcome_of_readBytes (cfg : Config) {t : State} {p : List Byte} (hp : p.length = t.msgLen.toNat)
    (h2 : 2 ≤ p.length) (hr : Memory.readBytes t.pbuf 0 t.msgLen.toNat = some p) :
    frameOutcome cfg t = .next (t,
      match lookup cfg t.msgId with
      | none => if cfg.yieldOnUnknown then some (unknownKind t.msgId) else none
      | some e =>
        match applyEntry e (contentOf p) with
        | none => some (nothing .contentLen)
        | some fields => some (.message t.msgId fields)) := by
  have hl : t.msgLen.toNat < 256 := t.msgLen.isLt
  unfold frameOutcome
  cases hk : lookup cfg t.msgId with
  | none => rfl
  | some e =>
    have hc : (contentOf p).length = t.msgLen.toNat - cksumLen := by
      simp only [contentOf, List.length_take, cksumLen]; omega
    have hread : readPbuf t 0 (t.msgLen.toNat - cksumLen) = .ok (contentOf p) := by
      apply readPbuf_ok
      · rw [Memory.readBytes_take hr (Nat.sub_le _ _), contentOf, hp]
      · simp only [pbufSize]; omega
    simp only
    split_ifs with hlen
    · unfold frameMessage
      rw [hread]
      simp only
      cases applyEntry e (contentOf p) <;> rfl
    · have : applyEntry e (contentOf p) = none := by
        unfold applyEntry
        rw [dif_neg (by rw [hc]; exact hlen)]
      rw [this]
      rfl

/-- The four checks on a payload that is in `PBUF`. -/
theorem judge_of_readBytes (cfg : Config) {t : State} {p : List Byte} (hp : p.length = t.msgLen.toNat)
    (hr : Memory.readBytes t.pbuf 0 t.msgLen.toNat = some p) :
    judge cfg t = .next (t, verdict cfg t.msgId t.msgLen p) := by
  have hl : t.msgLen.toNat < 256 := t.msgLen.isLt
  unfold judge verdict
  rw [hp]
  by_cases h2 : t.msgLen.toNat < 2
  · simp [h2, cksumLen]
  · have hread : readPbuf t 0 t.msgLen.toNat = .ok p := readPbuf_ok hr (by simp only [pbufSize]; omega)
    rw [hread]
    simp only [cksumLen, h2, if_false]
    cases hv : verify t.msgId t.msgLen p with
    | false => simp
    | true =>
      simp only [if_true]
      rw [frameOutcome_of_readBytes cfg hp (by omega) hr]
      rfl

/-- GETPAY, selected and enabled: the state after it and what it yields. -/
theorem fireGetpay_next (cfg : Config) (hst : s.st = .haveMsgLen) (hn : s.need = s.msgLen) (hq : s.rxq = p ++ rest)
    (hp : p.length = s.msgLen.toNat) :
    fireGetpay cfg s = .next (s.afterPayload p rest, verdict cfg s.msgId s.msgLen p) := by
  unfold fireGetpay
  rw [if_neg (by simp [hst, hn]), if_neg (by simp [rxAvail, hq, hn, hp]), takePayload_ok hq hp]
  have hr := afterPayload_readBytes s p rest p.length (Nat.le_refl _)
  rw [List.take_length, hp] at hr
  exact judge_of_readBytes cfg hp hr

/-- GETPAY in its state, not enabled: nothing happens. -/
theorem fireGetpay_notEnabled (cfg : Config) (hst : s.st = .haveMsgLen) (hn : s.need = s.msgLen)
    (hq : s.rxq.length < s.msgLen.toNat) : fireGetpay cfg s = .next (s, none) := by
  unfold fireGetpay
  rw [if_neg (by simp [hst, hn]), if_pos (by simpa [rxAvail, hn] using hq)]

/-- Everything GETPAY can do when it answers next. -/
theorem fireGetpay_cases {u : State} {o : Option PollResult} (h : fireGetpay cfg s = .next (u, o)) :
    s.st = .haveMsgLen ∧ s.need = s.msgLen ∧
      (s.rxq.length < s.msgLen.toNat ∧ u = s ∧ o = none ∨
        ∃ p rest, s.rxq = p ++ rest ∧ p.length = s.msgLen.toNat ∧ u = s.afterPayload p rest ∧
          o = verdict cfg s.msgId s.msgLen p) := by
  have hc : s.st = .haveMsgLen ∧ s.need = s.msgLen := by
    by_contra hc
    rw [fireGetpay, if_pos (by tauto)] at h
    cases h
  refine ⟨hc.1, hc.2, ?_⟩
  by_cases hq : s.rxq.length < s.msgLen.toNat
  · rw [fireGetpay_notEnabled cfg hc.1 hc.2 hq] at h
    simp only [Host.Outcome.next.injEq, Prod.mk.injEq] at h
    exact .inl ⟨hq, h.1.symm, h.2.symm⟩
  · have hp : (s.rxq.take s.msgLen.toNat).length = s.msgLen.toNat := by simp; omega
    have he := (List.take_append_drop s.msgLen.toNat s.rxq).symm
    rw [fireGetpay_next cfg hc.1 hc.2 he hp] at h
    simp only [Host.Outcome.next.injEq, Prod.mk.injEq] at h
    exact .inr ⟨_, _, he, hp, h.1.symm, h.2.symm⟩

end Getpay

/-- What the parts of the verdict look like on a payload written as content and checksum field. -/
theorem verdict_append (cfg : Config) (id len : Byte) (c : List Byte) (lo hi : Byte) :
    verdict cfg id len (c ++ [lo, hi]) =
      if compute (id :: len :: c) = unle16 lo hi then
        match lookup cfg id with
        | none => if cfg.yieldOnUnknown then some (unknownKind id) else none
        | some e =>
          match applyEntry e c with
          | none => some (nothing .contentLen)
          | some fields => some (.message id fields)
      else some (nothing .cksum) := by
  unfold verdict
  rw [if_neg (by simp), verify_append, contentOf_append]
  by_cases h : compute (id :: len :: c) = unle16 lo hi
  · exact (if_neg (by simp [h])).trans (if_pos h).symm
  · simp [h]

end Sys2Proof.Machine
end

