-- ==== Sys2Proof/Laws/PerInstr.lean ====
section
/-! SUPPORT. Per instruction: a well-formed operation's word fits a row of its own format, and that row stands for the
operation (30_encoding.md R86, R88, R89, R91). -/

namespace Sys2Proof.Laws.FitsRow

open Sys2Proof Sys2Proof.Machine

/-- The word of `i` lies in its format's selector, and a row that applies to it stands for `i`. -/
def Statement (i : Instr) : Prop :=
  i.wellFormed = true →
    (encode i).sel.toNat < 2 ^ (encode i).fmt.width ∧
      ∃ r ∈ rowsOf (encode i).fmt, r.applies (encode i) = true ∧ r.build (encode i) = i

/-- A word that decodes to `i` fits a row that stands for `i`. -/
theorem of_decode {i : Instr} (h : i.wellFormed = true → decode (encode i) = .instr i) : Statement i := by
  intro hw
  replace h := h hw
  unfold decode at h
  split_ifs at h with hs
  refine ⟨Nat.lt_of_not_le hs, ?_⟩
  split at h
  · next r hf =>
    exact ⟨r, List.mem_of_find?_eq_some hf, by simpa using List.find?_some hf, by simpa using h⟩
  · cases h

theorem ckClr : Statement .ckClr := of_decode fun _ => by decide

theorem ckAbs (d : Byte) : Statement (.ckAbs d) :=
  of_decode fun _ => (by decide +kernel : ∀ d : Byte, decode (encode (.ckAbs d)) = .instr (.ckAbs d)) d

theorem ckRes : Statement .ckRes := of_decode fun _ => by decide

theorem idleSync : Statement .idleSync := of_decode fun _ => decode_step_idle _

theorem idleSkip (b : Byte) : Statement (.idleSkip b) := of_decode fun h => by
  have hb : b ≠ 0xFF#8 := by simpa [Instr.wellFormed] using h
  simp [encode, decode_step_idle, syncByte, hb]

theorem sync1Sync : Statement .sync1Sync := of_decode fun _ => decode_step_first _

theorem sync1Miss (b : Byte) : Statement (.sync1Miss b) := of_decode fun h => by
  have hb : b ≠ 0xFF#8 := by simpa [Instr.wellFormed] using h
  simp [encode, decode_step_first, syncByte, hb]

theorem getid (b : Byte) : Statement (.getid b) := of_decode fun _ => decode_step_second b

theorem getlen (b : Byte) : Statement (.getlen b) := of_decode fun _ => decode_step_id b

theorem getpay : Statement .getpay := of_decode fun _ => decode_step_len _

theorem pose : Statement .pose := of_decode fun _ => decode_frame _ _

theorem poseBadlen (len : Byte) : Statement (.poseBadlen len) := of_decode fun h => by
  have hl : len ≠ 0x0E#8 := by simpa [Instr.wellFormed] using h
  simp [encode, decode_frame, hl]

theorem unknown (id len : Byte) : Statement (.unknown id len) := of_decode fun h => by
  have hi : id ≠ 0x01#8 := by simpa [Instr.wellFormed] using h
  simp [encode, decode_frame, hi]

theorem poll : Statement .poll := of_decode fun _ => by decide

theorem reset : Statement .reset := of_decode fun _ => by decide

end Sys2Proof.Laws.FitsRow
end

