-- ==== Sys2Proof/Laws/Poll.lean ====
section
/-! SUPPORT. What one enabled step does, said once, and the driving loop: it ends, its bound does not matter, and it is
one step followed by the loop. -/

namespace Sys2Proof.Machine

theorem needOk_iff (s : State) : needOk s = true ↔ s.need = needFor s.st s.msgLen := by simp [needOk]

theorem enabled_iff (s : State) : enabled s = true ↔ s.need.toNat ≤ s.rxq.length := decide_eq_true_iff

@[simp] theorem needOk_arrive (s : State) : needOk (arrive s) = needOk s := by simp [needOk]

/-- A state whose `NEED` is 1 and that is enabled has a head byte. -/
theorem head_of_enabled {s : State} (hn : s.need = 1#8) (he : enabled s = true) : ∃ b rest, s.rxq = b :: rest := by
  rw [enabled_iff, hn] at he
  cases hq : s.rxq with
  | nil => simp [hq] at he
  | cons b rest => exact ⟨b, rest, rfl⟩

/-- A state that waits for a payload and is enabled has one. -/
theorem payload_of_enabled {s : State} (hn : s.need = s.msgLen) (he : enabled s = true) :
    ∃ p rest, s.rxq = p ++ rest ∧ p.length = s.msgLen.toNat := by
  rw [enabled_iff, hn] at he
  exact ⟨_, _, (List.take_append_drop s.msgLen.toNat s.rxq).symm, by simp; omega⟩

/-- Everything an enabled step can do, from a state whose `NEED` obeys R22: one of the five cases, each with its next
state; it never faults and is never refused. -/
theorem fireSelected_cases (cfg : Config) {s : State} (hn : needOk s = true) (he : enabled s = true) :
    (∃ b rest, s.st = .idle ∧ s.rxq = b :: rest ∧ fireSelected cfg s =
        .next ({ s with rxq := rest, st := if b = syncByte then .sawFirstSync else .idle }, none)) ∨
    (∃ b rest, s.st = .sawFirstSync ∧ s.rxq = b :: rest ∧ fireSelected cfg s =
        .next ({ s with rxq := rest, st := if b = syncByte then .sawSecondSync else .idle }, none)) ∨
    (∃ b rest, s.st = .sawSecondSync ∧ s.rxq = b :: rest ∧ fireSelected cfg s =
        .next ({ s with rxq := rest, msgId := b, st := .haveMsgId }, none)) ∨
    (∃ b rest, s.st = .haveMsgId ∧ s.rxq = b :: rest ∧ fireSelected cfg s =
        .next ({ s with rxq := rest, msgLen := b, need := b, st := .haveMsgLen }, none)) ∨
    (∃ p rest, s.st = .haveMsgLen ∧ s.rxq = p ++ rest ∧ p.length = s.msgLen.toNat ∧ fireSelected cfg s =
        .next (s.afterPayload p rest, verdict cfg s.msgId s.msgLen p)) := by
  rw [needOk_iff] at hn
  cases hst : s.st <;> rw [hst] at hn <;> simp only [needFor] at hn
  · obtain ⟨b, rest, hq⟩ := head_of_enabled hn he
    exact .inl ⟨b, rest, rfl, hq, fireSelected_idle cfg hst hn hq⟩
  · obtain ⟨b, rest, hq⟩ := head_of_enabled hn he
    exact .inr (.inl ⟨b, rest, rfl, hq, fireSelected_first cfg hst hn hq⟩)
  · obtain ⟨b, rest, hq⟩ := head_of_enabled hn he
    exact .inr (.inr (.inl ⟨b, rest, rfl, hq, fireSelected_second cfg hst hn hq⟩))
  · obtain ⟨b, rest, hq⟩ := head_of_enabled hn he
    exact .inr (.inr (.inr (.inl ⟨b, rest, rfl, hq, fireSelected_id cfg hst hn hq⟩)))
  · obtain ⟨p, rest, hq, hp⟩ := payload_of_enabled hn he
    exact .inr (.inr (.inr (.inr ⟨p, rest, rfl, hq, hp, by
      rw [fireSelected_len cfg hst, fireGetpay_next cfg hst hn hq hp]⟩)))

/-- A frame of fewer than two payload bytes always yields. -/
theorem verdict_some_of_short (cfg : Config) (id len : Byte) {p : List Byte} (h : p.length < 2) :
    verdict cfg id len p = some (nothing .badLen) := by simp [verdict, h]

/-- What every enabled step has in common: `NEED` obeys R22 again, bytes only leave the queue at its head, a step that
does not yield takes at least one, and what is not the core's is left alone. -/
theorem fireSelected_frame (cfg : Config) {s : State} (hn : needOk s = true) (he : enabled s = true) :
    ∃ u o k, fireSelected cfg s = .next (u, o) ∧ needOk u = true ∧ u.rxq = s.rxq.drop k ∧ k ≤ s.rxq.length ∧
      (o = none → 1 ≤ k) ∧ (o.isSome → u.st = .idle) ∧ u.arrivals = s.arrivals ∧ u.results = s.results ∧
      u.sums = s.sums ∧ u.inputs = s.inputs ∧ (Memory.wf s.pbuf → Memory.wf u.pbuf) := by
  have hn' := (needOk_iff s).mp hn
  rcases fireSelected_cases cfg hn he with ⟨b, rest, hst, hq, h⟩ | ⟨b, rest, hst, hq, h⟩ | ⟨b, rest, hst, hq, h⟩ |
    ⟨b, rest, hst, hq, h⟩ | ⟨p, rest, hst, hq, hp, h⟩
  · refine ⟨_, _, 1, h, ?_, by simp [hq], by simp [hq], by simp, by simp, rfl, rfl, rfl, rfl, id⟩
    rw [hst] at hn'
    simp only [needOk_iff]
    split_ifs <;> exact hn'
  · refine ⟨_, _, 1, h, ?_, by simp [hq], by simp [hq], by simp, by simp, rfl, rfl, rfl, rfl, id⟩
    rw [hst] at hn'
    simp only [needOk_iff]
    split_ifs <;> exact hn'
  · refine ⟨_, _, 1, h, ?_, by simp [hq], by simp [hq], by simp, by simp, rfl, rfl, rfl, rfl, id⟩
    rw [hst] at hn'
    simpa [needOk_iff, needFor] using hn'
  · refine ⟨_, _, 1, h, ?_, by simp [hq], by simp [hq], by simp, by simp, rfl, rfl, rfl, rfl, id⟩
    simp [needOk_iff, needFor]
  · refine ⟨_, _, p.length, h, by simp [needOk_iff, State.afterPayload, needFor], ?_, by simp [hq], ?_,
      by simp [State.afterPayload], rfl, rfl, rfl, rfl, fun hw => ?_⟩
    · rw [hq, List.drop_left]; rfl
    · intro ho
      by_contra hc
      rw [verdict_some_of_short cfg _ _ (by omega)] at ho
      cases ho
    · have hl : s.msgLen.toNat < 256 := s.msgLen.isLt
      exact Memory.wf_writeBytes hw (by simp only [pbufSize]; omega)

theorem pendingBytes_eq (s : State) : pendingBytes s = s.stream.length := by simp [pendingBytes, State.stream]

@[simp] theorem pendingBytes_arrive (s : State) : pendingBytes (arrive s) = pendingBytes s := by
  rw [pendingBytes_eq, arrive_stream, pendingBytes_eq]

/-- A step that does not yield leaves fewer bytes to come. -/
theorem fireSelected_pending (cfg : Config) {s u : State} (hn : needOk s = true) (he : enabled s = true)
    (h : fireSelected cfg s = .next (u, none)) : pendingBytes u < pendingBytes s := by
  obtain ⟨u', o, k, h', -, hq, hk, hk1, -, ha, -⟩ := fireSelected_frame cfg hn he
  rw [h] at h'
  simp only [Host.Outcome.next.injEq, Prod.mk.injEq] at h'
  obtain ⟨rfl, rfl⟩ := h'
  have := hk1 rfl
  simp only [pendingBytes, hq, ha, List.length_drop]
  omega

/-- With more fuel than bytes, the amount of fuel does not matter. -/
theorem pollLoop_fuel (cfg : Config) (f g : Nat) (s : State) (hn : needOk s = true) (hf : pendingBytes s < f)
    (hg : pendingBytes s < g) : pollLoop cfg f s = pollLoop cfg g s := by
  induction f generalizing g s with
  | zero => omega
  | succ f ih =>
    obtain ⟨g, rfl⟩ : ∃ k, g = k + 1 := ⟨g - 1, by omega⟩
    simp only [pollLoop]
    by_cases he : enabled (arrive s) = true
    · simp only [he, if_true]
      obtain ⟨u, o, k, h, hu, -⟩ := fireSelected_frame cfg (by simpa using hn) he
      rw [h]
      cases o with
      | some r => rfl
      | none =>
        have := fireSelected_pending cfg (by simpa using hn) he h
        rw [pendingBytes_arrive] at this
        exact ih g u hu (by omega) (by omega)
    · simp [he]

/-- POLL when too few bytes are there (R139, R181). -/
theorem pollWith_notEnough (cfg : Config) {s : State} (he : enabled (arrive s) = false) :
    pollWith cfg s = .next (hand (nothing .notEnough) (arrive s)) := by
  simp [pollWith, pollLoop, he]

/-- POLL when the step yields: it ends with that result. -/
theorem pollWith_yield (cfg : Config) {s u : State} {r : PollResult} (he : enabled (arrive s) = true)
    (h : fireSelected cfg (arrive s) = .next (u, some r)) : pollWith cfg s = .next (hand r u) := by
  simp [pollWith, pollLoop, he, h]

/-- POLL when the step does not yield: that step, then POLL. -/
theorem pollWith_step (cfg : Config) {s u : State} (hn : needOk s = true) (he : enabled (arrive s) = true)
    (h : fireSelected cfg (arrive s) = .next (u, none)) : pollWith cfg s = pollWith cfg u := by
  have hp := fireSelected_pending cfg (by simpa using hn) he h
  rw [pendingBytes_arrive] at hp
  obtain ⟨u', o, k, h', hu, -⟩ := fireSelected_frame cfg (by simpa using hn) he
  rw [h] at h'
  simp only [Host.Outcome.next.injEq, Prod.mk.injEq] at h'
  obtain ⟨rfl, rfl⟩ := h'
  rw [pollWith, pollLoop]
  simp only [he, if_true, h]
  exact pollLoop_fuel cfg _ _ u hu hp (Nat.lt_succ_self _)

/-- The induction on POLLs, packaged once: to show something of the answer of every POLL from states whose `NEED`
obeys R22, show it where too few bytes are there, where a step yields, and across a step that does not yield. -/
theorem pollWith_induction (cfg : Config) (P : State → Host.Outcome State Fault Refusal → Prop)
    (short : ∀ s, needOk s = true → enabled (arrive s) = false →
      P s (.next (hand (nothing .notEnough) (arrive s))))
    (yield : ∀ s u r, needOk s = true → enabled (arrive s) = true →
      fireSelected cfg (arrive s) = .next (u, some r) → P s (.next (hand r u)))
    (step : ∀ s u x, needOk s = true → enabled (arrive s) = true →
      fireSelected cfg (arrive s) = .next (u, none) → needOk u = true → P u x → P s x)
    (s : State) (hn : needOk s = true) : P s (pollWith cfg s) := by
  generalize hk : pendingBytes s = n
  induction n using Nat.strong_induction_on generalizing s with
  | _ n ih =>
    by_cases he : enabled (arrive s) = true
    · obtain ⟨u, o, k, h, hu, -⟩ := fireSelected_frame cfg (by simpa using hn) he
      cases o with
      | some r =>
        rw [pollWith_yield cfg he h]
        exact yield s u r hn he h
      | none =>
        have hp := fireSelected_pending cfg (by simpa using hn) he h
        rw [pendingBytes_arrive, hk] at hp
        rw [pollWith_step cfg hn he h]
        exact step s u _ hn he h hu (ih _ hp u hu rfl)
    · rw [Bool.not_eq_true] at he
      rw [pollWith_notEnough cfg he]
      exact short s hn he

end Sys2Proof.Machine
end

