-- ==== Sys2Proof/Laws/Step.lean ====
section
/-! SUPPORT. What one exec of each shape can do when it answers next, and what one step does with each kind of input. -/

namespace Sys2Proof.Machine

/-- What one assembler step by itself can do, whatever byte its operand names: nothing, on an empty queue; or take one
byte, and then the rest of its effect is an update `f` of that byte. -/
theorem deliver_byteStep_cases {want : AsmState} {ok : Byte → Bool} {f : Byte → State → State} {s t : State}
    (h : deliver (byteStep want (fun b u => whenByte (ok b) (f b u)) s) = .next t) :
    s.st = want ∧ s.need = 1#8 ∧
      (t = s ∨ ∃ b rest, s.rxq = b :: rest ∧ ok b = true ∧ t = f b { s with rxq := rest }) := by
  obtain ⟨u, o, h', rfl⟩ := deliver_next_cases h
  obtain ⟨h1, h2, ⟨-, rfl, rfl⟩ | ⟨b, rest, hq, hk⟩⟩ := byteStep_cases h'
  · exact ⟨h1, h2, .inl rfl⟩
  · obtain ⟨hok, rfl, rfl⟩ := whenByte_cases hk
    exact ⟨h1, h2, .inr ⟨b, rest, hq, hok, rfl⟩⟩

/-- What GETPAY by itself can do: nothing, with too few bytes; or end the frame and hand over what the four checks
give. -/
theorem execGetpay_cases {s t : State} (h : execGetpay s = .next t) :
    s.st = .haveMsgLen ∧ s.need = s.msgLen ∧
      (t = s ∨ ∃ p rest, s.rxq = p ++ rest ∧ p.length = s.msgLen.toNat ∧
        t = (verdict hardware s.msgId s.msgLen p).elim (s.afterPayload p rest)
          fun r => hand r (s.afterPayload p rest)) := by
  obtain ⟨u, o, h', rfl⟩ := deliver_next_cases h
  obtain ⟨h1, h2, ⟨-, rfl, rfl⟩ | ⟨p, rest, hq, hp, rfl, rfl⟩⟩ := fireGetpay_cases _ h'
  · exact ⟨h1, h2, .inl rfl⟩
  · exact ⟨h1, h2, .inr ⟨p, rest, hq, hp, rfl⟩⟩

/-- What a message-level outcome by itself can do, when it leaves the state as it is: hand over one result or none. -/
theorem whenFrame_cases {ok : Bool} {f : State → Fired} {s t : State}
    (hf : ∀ u o, f s = .next (u, o) → u = s) (h : whenFrame ok f s = .next t) :
    t = s ∨ ∃ r, t = hand r s := by
  unfold whenFrame at h
  split_ifs at h
  obtain ⟨u, o, h', rfl⟩ := deliver_next_cases h
  obtain rfl := hf u o h'
  cases o with
  | none => exact .inl rfl
  | some r => exact .inr ⟨r, rfl⟩

/-- The outcomes change no state: what they yield is all. -/
theorem frameBadLen_state {s u : State} {o : Option PollResult} (h : frameBadLen s = .next (u, o)) : u = s := by
  simp only [frameBadLen, Host.Outcome.next.injEq, Prod.mk.injEq] at h
  exact h.1.symm

theorem frameUnknown_state {cfg : Config} {s u : State} {o : Option PollResult}
    (h : frameUnknown cfg s = .next (u, o)) : u = s := by
  simp only [frameUnknown, Host.Outcome.next.injEq, Prod.mk.injEq] at h
  exact h.1.symm

theorem frameMessage_state {e : Entry} {s u : State} {o : Option PollResult}
    (h : frameMessage e s = .next (u, o)) : u = s := by
  unfold frameMessage at h
  split at h
  · cases h
  · split at h
    · simp only [Host.Outcome.next.injEq, Prod.mk.injEq] at h
      exact h.1.symm
    · exact frameBadLen_state h

/-- The CALL words (R91). -/
theorem decode_call : ∀ c : BitVec 2, decode ⟨.call, c.setWidth 16, 0#8⟩ =
    if c = 0#2 then .reject .noRequest else if c = 1#2 then .instr .poll else .instr .reset := by decide +kernel

/-- The CKOP words (R89, R90). -/
theorem decode_ckop : ∀ (d : Byte) (c : BitVec 2), decode ⟨.ckop, c.setWidth 16, d⟩ =
    if c = 0#2 then .instr .ckClr else if c = 1#2 then .instr (.ckAbs d) else if c = 2#2 then .instr .ckRes
      else .reject (.reserved .ckop) := by decide +kernel

/-- A step that finds no input. -/
theorem step_nil {s : State} (h : s.inputs = []) : step s = .next s := by
  have : dropInput s = s := by simp only [dropInput, h, List.tail_nil]; rw [← h]
  simp [step, fetch, h, this]

/-- A step that finds a word to perform. -/
theorem step_word {s : State} {inp : Input} {rest : List Input} {w : OpWord} {i : Instr} (h : s.inputs = inp :: rest)
    (hw : fetchInput inp s = .word w) (hd : decode w = .instr i) : step s = exec i { s with inputs := rest } := by
  simp [step, fetch, h, hw, hd, dropInput]

/-- A step that finds a feed. -/
theorem step_feed {s : State} {bs : List Byte} {rest : List Input} (h : s.inputs = .feed bs :: rest) :
    step s = .next { s with inputs := rest, rxq := s.rxq ++ bs } := by
  simp [step, fetch, fetchInput, h, append, dropInput]

/-- A step that finds a POLL request. -/
theorem step_poll {s : State} {rest : List Input} (h : s.inputs = pollReq :: rest) :
    step s = execPoll { s with inputs := rest } :=
  step_word h (w := ⟨.call, (1#2 : BitVec 2).setWidth 16, 0#8⟩) rfl (decode_call 1#2)

end Sys2Proof.Machine
end

