-- ==== Sys2Proof/Tests/Slice0.lean ====
section
/-! SUPPORT. Tests. Expected values are from the spec's own tables: 95_test_vectors.md unless a rule is named. The second
half gives, for every obligation with hypotheses, states and operands that meet them together. -/

namespace Sys2Proof.Tests

open Sys2Proof Sys2Proof.Machine

/-! ## Helpers -/

/-- A small state: `ST`, `NEED`, `ID`, `LEN`, `RXQ`, and `A`, `B`. -/
def at_ (st : AsmState) (need id len : Byte) (q : List Byte) : State where
  st := st
  need := need
  msgId := id
  msgLen := len
  pbuf := []
  a := 0xCE#8
  b := 0x31#8
  rxq := q
  results := []
  sums := []
  inputs := []
  arrivals := []
  freeCtr := 0

/-- Idle with a queue. -/
def idle (q : List Byte) : State := at_ .idle 1#8 0#8 0#8 q

/-- Waiting for a payload, with a queue. -/
def wait (id len : Byte) (q : List Byte) : State := at_ .haveMsgLen len id len q

/-- `PBUF` holds a payload. -/
def held (id len : Byte) (p : List Byte) : State :=
  { at_ .idle 1#8 id len [] with pbuf := Memory.writeBytes [] 0 p }

/-- The answer is a next state of which `f` holds. -/
def gives (o : Host.Outcome State Fault Refusal) (f : State → Bool) : Bool :=
  match o with
  | .next t => f t
  | .fault _ => false
  | .refused _ => false

/-- The answer is this refusal. -/
def stops (o : Host.Outcome State Fault Refusal) (r : Refusal) : Bool :=
  match o with
  | .next _ => false
  | .fault _ => false
  | .refused r' => r = r'

/-- `ST`, `NEED`, `RXQ` and the results handed over are these. -/
def shows (st : AsmState) (need : Byte) (q : List Byte) (rs : List PollResult) (t : State) : Bool :=
  decide (t.st = st) && decide (t.need = need) && decide (t.rxq = q) && decide (t.results = rs)

/-- The payload of frame `F`, the scenario. -/
def payF : List Byte :=
  [0x00#8, 0x00#8, 0x00#8, 0x00#8, 0x00#8, 0x00#8, 0x80#8, 0x3F#8, 0x00#8, 0x00#8, 0x00#8, 0x40#8, 0x3F#8, 0x0E#8]

/-- The message of `F`. -/
def msgF : PollResult := .message 0x01#8 (.pose 0x3F800000#32 0x40000000#32 0x00000000#32)

/-- Frame `F`. -/
def frameF : List Byte := [0xFF#8, 0xFF#8, 0x01#8, 0x0E#8] ++ payF

/-! ## WellFormed refuses -/

theorem test_wf_idleSkip : Instr.wellFormed (.idleSkip 0xFF#8) = false := by decide
theorem test_wf_sync1Miss : Instr.wellFormed (.sync1Miss 0xFF#8) = false := by decide
theorem test_wf_poseBadlen : Instr.wellFormed (.poseBadlen 0x0E#8) = false := by decide
theorem test_wf_unknown : Instr.wellFormed (.unknown 0x01#8 0x05#8) = false := by decide

/-! ## Decoding: every row of R86, R88, R89, R91 by a word written out from its selector -/

theorem test_decode_ckop :
    decode ⟨.ckop, 0b00#16, 0x80#8⟩ = .instr .ckClr ∧
    decode ⟨.ckop, 0b01#16, 0x80#8⟩ = .instr (.ckAbs 0x80#8) ∧
    decode ⟨.ckop, 0b10#16, 0x80#8⟩ = .instr .ckRes ∧
    decode ⟨.ckop, 0b11#16, 0x80#8⟩ = .reject (.reserved .ckop) := by decide

theorem test_decode_step :
    decode ⟨.step, 0b000_11111111#16, 0#8⟩ = .instr .idleSync ∧
    decode ⟨.step, 0b000_11111110#16, 0#8⟩ = .instr (.idleSkip 0xFE#8) ∧
    decode ⟨.step, 0b001_11111111#16, 0#8⟩ = .instr .sync1Sync ∧
    decode ⟨.step, 0b001_00000000#16, 0#8⟩ = .instr (.sync1Miss 0x00#8) ∧
    decode ⟨.step, 0b010_11111111#16, 0#8⟩ = .instr (.getid 0xFF#8) ∧
    decode ⟨.step, 0b011_00001110#16, 0#8⟩ = .instr (.getlen 0x0E#8) ∧
    decode ⟨.step, 0b100_10100101#16, 0#8⟩ = .instr .getpay := by decide

/-- `ST` = 5, 6, 7 (R34), and bits above the selector. -/
theorem test_decode_step_rejects :
    decode ⟨.step, 0b101_00000000#16, 0#8⟩ = .reject (.reserved .step) ∧
    decode ⟨.step, 0b110_11111111#16, 0#8⟩ = .reject (.reserved .step) ∧
    decode ⟨.step, 0b111_11111111#16, 0#8⟩ = .reject (.reserved .step) ∧
    decode ⟨.step, 0b1000_00000000#16, 0#8⟩ = .reject (.excess .step) := by decide

theorem test_decode_frame :
    decode ⟨.frame, 0b00000001_00001110#16, 0#8⟩ = .instr .pose ∧
    decode ⟨.frame, 0b00000001_00000110#16, 0#8⟩ = .instr (.poseBadlen 0x06#8) ∧
    decode ⟨.frame, 0b00000111_00001110#16, 0#8⟩ = .instr (.unknown 0x07#8 0x0E#8) ∧
    decode ⟨.frame, 0b00000000_00000000#16, 0#8⟩ = .instr (.unknown 0x00#8 0x00#8) := by decide

/-- R88 under a registry with the entry of program P14 beside Pose, and under one without Pose. -/
theorem test_decodeFrame_other_registry :
    let e : Entry := ⟨0x42#8, 253, fun c _ => .bytes c⟩
    let both : Config := ⟨[poseEntry, e], true⟩
    let one : Config := ⟨[e], true⟩
    decodeFrame both ⟨.frame, 0x42FF#16, 0#8⟩ = .message 0x42#8 ∧
    decodeFrame both ⟨.frame, 0x4210#16, 0#8⟩ = .badLen 0x42#8 0x10#8 ∧
    decodeFrame both ⟨.frame, 0x010E#16, 0#8⟩ = .message 0x01#8 ∧
    decodeFrame both ⟨.frame, 0x01FF#16, 0#8⟩ = .badLen 0x01#8 0xFF#8 ∧
    decodeFrame one ⟨.frame, 0x010E#16, 0#8⟩ = .unknown 0x01#8 0x0E#8 := by decide

theorem test_decode_call :
    decode ⟨.call, 0b00#16, 0#8⟩ = .reject .noRequest ∧
    decode ⟨.call, 0b01#16, 0#8⟩ = .instr .poll ∧
    decode ⟨.call, 0b10#16, 0#8⟩ = .instr .reset ∧
    decode ⟨.call, 0b11#16, 0#8⟩ = .instr .reset := by decide

/-- The numbers of opcode_table.json: `match` of each row whose number no earlier row of log 12's order takes, and a
number of each of the other four that shows who takes it. -/
theorem test_table_numbers :
    decodeTableWord 8 0x0 = some .ckClr ∧ decodeTableWord 8 0x1 = some .poll ∧
    decodeTableWord 8 0x2 = some .reset ∧ decodeTableWord 16 0x0FF = some .idleSync ∧
    decodeTableWord 16 0x000 = some (.idleSkip 0x00#8) ∧ decodeTableWord 16 0x1FF = some .sync1Sync ∧
    decodeTableWord 16 0x100 = some (.sync1Miss 0x00#8) ∧ decodeTableWord 16 0x200 = some (.getid 0x00#8) ∧
    decodeTableWord 16 0x300 = some (.getlen 0x00#8) ∧ decodeTableWord 16 0x400 = some .getpay ∧
    decodeTableWord 16 0x010E = some .pose ∧ decodeTableWord 16 0x0704 = some (.unknown 0x07#8 0x04#8) ∧
    decodeTableWord 16 0x10000 = none := by decide

/-- The step after `withFetchWord` performs the word, from reset (log 16). -/
theorem test_withFetchWord :
    gives (step (State.reset.withFetchWord 16 0x000)) (shows .idle 1#8 [] []) = true ∧
    gives (step (State.reset.withFetchWord 16 0x1FF)) (shows .sawSecondSync 1#8 [] []) = true ∧
    gives (step (State.reset.withFetchWord 16 0x010E))
      (shows .idle 1#8 [] [.message 0x01#8 (.pose 0#32 0#32 0#32)]) = true ∧
    gives (step (State.reset.withFetchWord 16 0x0704))
      (shows .idle 1#8 [] [.nothing .unknownId (some 0x07#8)]) = true ∧
    gives (step (State.reset.withFetchWord 8 0x1)) (shows .idle 1#8 [] [.nothing .notEnough none]) = true := by
  decide +kernel

/-! ## The checksum unit (sections 2.2 to 2.4) -/

/-- Rows of section 2.2: both additions wrap; `A` wraps and `B` uses the wrapped `A`; a zero byte still adds `A`. -/
theorem test_ckAbs :
    gives (exec (.ckAbs 0xFF#8) { idle [] with a := 0xFF#8, b := 0xFF#8 })
      (fun t => decide (t.a = 0xFE#8 ∧ t.b = 0xFD#8)) = true ∧
    gives (exec (.ckAbs 0x40#8) (idle [])) (fun t => decide (t.a = 0x0E#8 ∧ t.b = 0x3F#8)) = true ∧
    gives (exec (.ckAbs 0x00#8) { idle [] with a := 0x12#8, b := 0x34#8 })
      (fun t => decide (t.a = 0x12#8 ∧ t.b = 0x46#8)) = true := by decide

theorem test_ckClr : gives (exec .ckClr (idle [])) (fun t => decide (t.a = 0#8 ∧ t.b = 0#8)) = true := by decide

/-- `A` is the high byte; reading changes nothing. -/
theorem test_ckRes :
    gives (exec .ckRes { idle [] with a := 0x0E#8, b := 0x3F#8 })
      (fun t => decide (t.sums = [0x0E3F#16] ∧ t.a = 0x0E#8 ∧ t.b = 0x3F#8)) = true := by decide

/-- Section 2.3: the empty input, order, "abcde" (not the textbook value), and 256 bytes. -/
theorem test_compute :
    compute [] = 0x0000#16 ∧ compute [0x01#8, 0x02#8] = 0x0304#16 ∧ compute [0x02#8, 0x01#8] = 0x0305#16 ∧
    compute [0x61#8, 0x62#8, 0x63#8, 0x64#8, 0x65#8] = 0xEFC3#16 ∧
    compute (List.replicate 256 0xFF#8) = 0x0080#16 ∧
    compute ((List.range 256).map (BitVec.ofNat 8)) = 0x8080#16 := by decide +kernel

/-- Section 2.4. -/
theorem test_verify :
    verify 0x01#8 0x0E#8 payF = true ∧ verify 0x07#8 0x04#8 [0xAA#8, 0xBB#8, 0x37#8, 0x70#8] = true ∧
    verify 0x07#8 0x04#8 [0xAA#8, 0xBB#8, 0x70#8, 0x37#8] = false ∧ verify 0x02#8 0x0E#8 payF = false ∧
    verify 0x01#8 0x0D#8 payF = false ∧ verify 0x00#8 0x02#8 [0x02#8, 0x02#8] = true ∧
    verify 0x5A#8 0x01#8 [0x5A#8] = false ∧ verify 0x00#8 0x00#8 [] = false := by decide

/-- Section 3.4 and the table of frames. -/
theorem test_mkFrame :
    mkFrame 0x07#8 [0xAA#8, 0xBB#8] = [0xFF#8, 0xFF#8, 0x07#8, 0x04#8, 0xAA#8, 0xBB#8, 0x37#8, 0x70#8] ∧
    mkFrame 0x09#8 [] = [0xFF#8, 0xFF#8, 0x09#8, 0x02#8, 0x14#8, 0x0B#8] ∧
    poseFrame 0x00000000#32 0x3F800000#32 0x40000000#32 = frameF := by decide

/-! ## The assembler steps (section 3.1) -/

theorem test_idleSync :
    gives (exec .idleSync (idle [0xFF#8, 0x41#8])) (shows .sawFirstSync 1#8 [0x41#8] []) = true ∧
    stops (exec .idleSync (idle [0xFE#8])) .notSelected = true := by decide
theorem test_idleSkip :
    gives (exec (.idleSkip 0x00#8) (idle [0x00#8, 0xFF#8])) (shows .idle 1#8 [0xFF#8] []) = true ∧
    gives (exec (.idleSkip 0xFE#8) (idle [])) (shows .idle 1#8 [] []) = true := by decide
theorem test_sync1Sync :
    gives (exec .sync1Sync (at_ .sawFirstSync 1#8 0#8 0#8 [0xFF#8, 0x01#8]))
      (shows .sawSecondSync 1#8 [0x01#8] []) = true := by decide
theorem test_sync1Miss :
    gives (exec (.sync1Miss 0x00#8) (at_ .sawFirstSync 1#8 0#8 0#8 [0x00#8, 0xFF#8, 0xFF#8]))
      (shows .idle 1#8 [0xFF#8, 0xFF#8] []) = true := by decide
theorem test_getid :
    gives (exec (.getid 0xFF#8) (at_ .sawSecondSync 1#8 0#8 0#8 [0xFF#8]))
      (fun t => shows .haveMsgId 1#8 [] [] t && decide (t.msgId = 0xFF#8)) = true := by decide
theorem test_getlen :
    gives (exec (.getlen 0xFF#8) (at_ .haveMsgId 1#8 1#8 0#8 [0xFF#8]))
      (fun t => shows .haveMsgLen 0xFF#8 [] [] t && decide (t.msgLen = 0xFF#8)) = true ∧
    gives (exec (.getlen 0x00#8) (at_ .haveMsgId 1#8 5#8 0x77#8 [0x00#8]))
      (fun t => shows .haveMsgLen 0x00#8 [] [] t && decide (t.msgLen = 0x00#8)) = true := by decide

/-! ## GETPAY, one test per path (section 3.2), and the outcomes by themselves -/

theorem test_getpay_message :
    gives (exec .getpay (wait 0x01#8 0x0E#8 (payF ++ [0xFF#8]))) (shows .idle 1#8 [0xFF#8] [msgF]) = true := by
  decide
theorem test_getpay_discards :
    gives (exec .getpay (wait 0x05#8 0x00#8 [])) (shows .idle 1#8 [] [.nothing .badLen none]) = true ∧
    gives (exec .getpay (wait 0x05#8 0x01#8 [0x99#8, 0xFF#8]))
      (shows .idle 1#8 [0xFF#8] [.nothing .badLen none]) = true ∧
    gives (exec .getpay (wait 0x07#8 0x04#8 [0xAA#8, 0xBB#8, 0x70#8, 0x37#8]))
      (shows .idle 1#8 [] [.nothing .cksum none]) = true ∧
    gives (exec .getpay (wait 0x07#8 0x04#8 [0xAA#8, 0xBB#8, 0x37#8, 0x70#8]))
      (shows .idle 1#8 [] [.nothing .unknownId (some 0x07#8)]) = true ∧
    gives (exec .getpay (wait 0x01#8 0x02#8 [0x04#8, 0x03#8]))
      (shows .idle 1#8 [] [.nothing .contentLen none]) = true := by decide

/-- Section 3.3, fourth row: both orders at once. -/
theorem test_decodePose :
    decodePose [0x01#8, 0x02#8, 0x03#8, 0x04#8, 0x05#8, 0x06#8, 0x07#8, 0x08#8, 0x09#8, 0x0A#8, 0x0B#8, 0x0C#8] rfl =
      .pose 0x08070605#32 0x0C0B0A09#32 0x04030201#32 := by decide

theorem test_pose : gives (exec .pose (held 0x01#8 0x0E#8 payF)) (shows .idle 1#8 [] [msgF]) = true := by decide
theorem test_poseBadlen :
    gives (exec (.poseBadlen 0x06#8) (held 0x01#8 0x06#8 [0x01#8, 0x02#8, 0x03#8, 0x04#8, 0x38#8, 0x11#8]))
      (shows .idle 1#8 [] [.nothing .contentLen none]) = true := by decide
theorem test_unknown :
    gives (exec (.unknown 0x09#8 0x02#8) (held 0x09#8 0x02#8 [0x14#8, 0x0B#8]))
      (shows .idle 1#8 [] [.nothing .unknownId (some 0x09#8)]) = true ∧
    stops (exec (.unknown 0x09#8 0x02#8) (held 0x09#8 0x02#8 [0x00#8, 0x00#8])) .notSelected = true := by decide

/-- The codes of R180. -/
theorem test_cause_codes :
    Cause.notEnough.code = 0#3 ∧ Cause.cksum.code = 1#3 ∧ Cause.badLen.code = 2#3 ∧ Cause.unknownId.code = 3#3 ∧
    Cause.contentLen.code = 4#3 := by decide

/-! ## POLL and RESET (section 4) -/

/-- Program P7: a stray sync byte in front of a frame. -/
theorem test_poll_stray_sync :
    gives (exec .poll (idle (0xFF#8 :: frameF))) (shows .idle 1#8 payF [.nothing .badLen none]) = true := by decide

/-- Programs P3 and P8c: resynchronisation does not end a POLL; a POLL that runs dry keeps its place. -/
theorem test_poll_noise_and_dry :
    gives (exec .poll (idle ([0x00#8, 0xFF#8, 0x00#8] ++ frameF))) (shows .idle 1#8 [] [msgF]) = true ∧
    gives (exec .poll (idle [0xFF#8, 0xFF#8, 0x05#8, 0x01#8]))
      (shows .haveMsgLen 1#8 [] [.nothing .notEnough none]) = true := by decide

/-- Section 3.5. -/
theorem test_reset :
    gives (exec .reset (wait 0x01#8 0xFF#8 frameF)) (shows .idle 1#8 frameF []) = true ∧
    gives (step { wait 0x01#8 0xFF#8 frameF with inputs := [.call 3#2] }) (shows .idle 1#8 frameF []) = true := by
  decide

theorem test_step_reserved_ckop : stops (step { idle [] with inputs := [.ckop 3#2 0x5A#8] }) .reservedCkOp = true := by
  decide

/-! ## Witnesses: what meets the hypotheses of each obligation -/

theorem wit_BuiltPayloadAlwaysVerifies : (List.replicate 253 0xFF#8).length ≤ 253 :=
  (List.length_replicate ..).le

/-- One for each of the three places: the id, the length, the last byte of the payload. -/
theorem wit_OneChangedByteIsAlwaysDetected :
    verify 0x01#8 0x0E#8 payF = true ∧ (0x02#8 : Byte) ≠ 0x01#8 ∧ (0x0D#8 : Byte) ≠ 0x0E#8 ∧
    13 < payF.length ∧ payF[13]? ≠ some 0x0F#8 ∧ 0 < payF.length ∧ payF[0]? ≠ some 0x80#8 := by decide

theorem wit_IdleSyncTakesTheFirstSyncByte :
    (idle [0xFF#8]).st = .idle ∧ (idle [0xFF#8]).need = 1#8 ∧ (idle [0xFF#8]).rxq = [0xFF#8] := by decide

theorem wit_IdleSkipDropsOneByte :
    (idle [0xFE#8, 0xFF#8]).st = .idle ∧ (idle [0xFE#8, 0xFF#8]).need = 1#8 ∧
    (idle [0xFE#8, 0xFF#8]).rxq = 0xFE#8 :: [0xFF#8] ∧ (0xFE#8 : Byte) ≠ 0xFF#8 := by decide

theorem wit_Sync1SyncTakesTheSecondSyncByte :
    (at_ .sawFirstSync 1#8 0#8 0#8 [0xFF#8]).st = .sawFirstSync ∧
    (at_ .sawFirstSync 1#8 0#8 0#8 [0xFF#8]).need = 1#8 ∧
    (at_ .sawFirstSync 1#8 0#8 0#8 [0xFF#8]).rxq = 0xFF#8 :: [] := by decide

theorem wit_Sync1MissDropsTheByteAndGoesIdle :
    (at_ .sawFirstSync 1#8 0#8 0#8 [0x00#8]).st = .sawFirstSync ∧
    (at_ .sawFirstSync 1#8 0#8 0#8 [0x00#8]).need = 1#8 ∧
    (at_ .sawFirstSync 1#8 0#8 0#8 [0x00#8]).rxq = 0x00#8 :: [] ∧ (0x00#8 : Byte) ≠ 0xFF#8 := by decide

theorem wit_GetidLatchesAnyByteAsId :
    (at_ .sawSecondSync 1#8 0#8 0#8 [0xFF#8]).st = .sawSecondSync ∧
    (at_ .sawSecondSync 1#8 0#8 0#8 [0xFF#8]).need = 1#8 ∧
    (at_ .sawSecondSync 1#8 0#8 0#8 [0xFF#8]).rxq = 0xFF#8 :: [] := by decide

theorem wit_GetlenLatchesAnyByteAsLenAndNeed :
    (at_ .haveMsgId 1#8 1#8 0#8 [0x00#8]).st = .haveMsgId ∧ (at_ .haveMsgId 1#8 1#8 0#8 [0x00#8]).need = 1#8 ∧
    (at_ .haveMsgId 1#8 1#8 0#8 [0x00#8]).rxq = 0x00#8 :: [] := by decide

/-- Enabled with exactly `NEED` bytes, for `NEED` 0 and 255; not enabled with one fewer. -/
theorem wit_StepTakesExactlyNeedBytesOrDoesNothing :
    needOk (wait 5#8 0x00#8 []) = true ∧ (wait 5#8 0x00#8 []).need.toNat ≤ (wait 5#8 0x00#8 []).rxq.length ∧
    decode (stepWord (wait 5#8 0x00#8 [])) = .instr .getpay ∧
    needOk (wait 5#8 0xFF#8 (List.replicate 255 1#8)) = true ∧
    (wait 5#8 0xFF#8 (List.replicate 255 1#8)).need.toNat ≤
      (wait 5#8 0xFF#8 (List.replicate 255 1#8)).rxq.length ∧
    decode (stepWord (wait 5#8 0xFF#8 (List.replicate 255 1#8))) = .instr .getpay ∧
    needOk (wait 5#8 0xFF#8 (List.replicate 254 1#8)) = true ∧
    (wait 5#8 0xFF#8 (List.replicate 254 1#8)).rxq.length <
      (wait 5#8 0xFF#8 (List.replicate 254 1#8)).need.toNat ∧
    decode ⟨.step, stepSel AsmState.haveMsgLen.code 1#8, 0#8⟩ = .instr .getpay := by decide +kernel

/-- One enabled state for each of the seven rows, the last with `LEN = 0`. -/
theorem wit_EnabledStepIsOneRowOfTheNextStateTable :
    ∀ s ∈ [idle [0xFF#8], idle [0xFE#8], at_ .sawFirstSync 1#8 0#8 0#8 [0xFF#8],
        at_ .sawFirstSync 1#8 0#8 0#8 [0xFE#8], at_ .sawSecondSync 1#8 0#8 0#8 [0xFF#8],
        at_ .haveMsgId 1#8 0#8 0#8 [0xFF#8], wait 5#8 0#8 []],
      needOk s = true ∧ s.need.toNat ≤ s.rxq.length := by decide

/-- The hypotheses shared by the statements about GETPAY. -/
def Waits (s : State) (p rest : List Byte) : Prop :=
  s.st = .haveMsgLen ∧ s.need = s.msgLen ∧ s.rxq = p ++ rest ∧ p.length = s.msgLen.toNat

/-- `LEN` = 0 and `LEN` = 1, the second with a byte behind the payload. -/
theorem wit_GetpayOfShortLengthIsBadLen :
    Waits (wait 5#8 0#8 []) [] [] ∧ (wait 5#8 0#8 []).msgLen.toNat < 2 ∧
    Waits (wait 5#8 1#8 [0x99#8, 0xFF#8]) [0x99#8] [0xFF#8] ∧
    (wait 5#8 1#8 [0x99#8, 0xFF#8]).msgLen.toNat < 2 := by unfold Waits; decide

theorem wit_GetpayOfBadChecksumIsCksum :
    Waits (wait 9#8 2#8 [0#8, 0#8]) [0#8, 0#8] [] ∧ 2 ≤ (wait 9#8 2#8 [0#8, 0#8]).msgLen.toNat ∧
    verify 9#8 2#8 [0#8, 0#8] = false := by unfold Waits; decide

theorem wit_GetpayOfUnregisteredIdIsUnknownId :
    Waits (wait 0#8 2#8 [2#8, 2#8]) [2#8, 2#8] [] ∧ verify 0#8 2#8 [2#8, 2#8] = true ∧
    (0#8 : Byte) ≠ 0x01#8 := by unfold Waits; decide

theorem wit_GetpayOfWrongContentLengthIsContentLen :
    Waits (wait 1#8 2#8 [4#8, 3#8]) [4#8, 3#8] [] ∧ verify 1#8 2#8 [4#8, 3#8] = true ∧
    (wait 1#8 2#8 [4#8, 3#8]).msgId = 0x01#8 ∧ (wait 1#8 2#8 [4#8, 3#8]).msgLen ≠ 0x0E#8 := by
  unfold Waits; decide

theorem wit_GetpayOfPoseFrameIsItsPose :
    Waits (wait 1#8 0x0E#8 (payF ++ [0xFF#8])) payF [0xFF#8] ∧ verify 0x01#8 0x0E#8 payF = true := by
  unfold Waits; decide

/-- `LEN` = 0 and `LEN` = 255. -/
theorem wit_GetpayAlwaysEndsTheFrame :
    Waits (wait 5#8 0#8 []) [] [] ∧
    Waits (wait 5#8 0xFF#8 (List.replicate 255 1#8)) (List.replicate 255 1#8) [] := by unfold Waits; decide +kernel

theorem wit_PoseHandsOverThePose :
    (held 0x01#8 0x0E#8 payF).msgId = 0x01#8 ∧ (held 0x01#8 0x0E#8 payF).msgLen = 0x0E#8 ∧
    Memory.readBytes (held 0x01#8 0x0E#8 payF).pbuf 0 14 = some payF ∧ verify 0x01#8 0x0E#8 payF = true := by decide

theorem wit_PoseBadlenHandsOverContentLen :
    (held 1#8 2#8 [4#8, 3#8]).msgId = 0x01#8 ∧ (held 1#8 2#8 [4#8, 3#8]).msgLen ≠ 0x0E#8 ∧
    Memory.readBytes (held 1#8 2#8 [4#8, 3#8]).pbuf 0 2 = some [4#8, 3#8] ∧ verify 1#8 2#8 [4#8, 3#8] = true := by
  decide

theorem wit_UnknownHandsOverTheId :
    (held 0#8 2#8 [2#8, 2#8]).msgId ≠ 0x01#8 ∧
    Memory.readBytes (held 0#8 2#8 [2#8, 2#8]).pbuf 0 2 = some [2#8, 2#8] ∧ verify 0#8 2#8 [2#8, 2#8] = true := by
  decide

/-- One for each of the three outcomes. -/
theorem wit_GetpayPerformsTheSelectedOutcome :
    (Waits (wait 1#8 0x0E#8 payF) payF [] ∧ verify 1#8 0x0E#8 payF = true ∧
      decode (frameWord (wait 1#8 0x0E#8 payF)) = .instr .pose) ∧
    (Waits (wait 1#8 2#8 [4#8, 3#8]) [4#8, 3#8] [] ∧ verify 1#8 2#8 [4#8, 3#8] = true ∧
      decode (frameWord (wait 1#8 2#8 [4#8, 3#8])) = .instr (.poseBadlen 2#8)) ∧
    (Waits (wait 0#8 2#8 [2#8, 2#8]) [2#8, 2#8] [] ∧ verify 0#8 2#8 [2#8, 2#8] = true ∧
      decode (frameWord (wait 0#8 2#8 [2#8, 2#8])) = .instr (.unknown 0#8 2#8)) := by unfold Waits; decide

/-- Too few bytes, counting those that arrive; a GETPAY; another step, on a byte that arrives meanwhile. -/
theorem wit_PollIsTheDrivingLoop :
    (needOk (wait 5#8 2#8 [1#8]) = true ∧
      (arrive (wait 5#8 2#8 [1#8])).rxq.length < (wait 5#8 2#8 [1#8]).need.toNat) ∧
    (needOk (wait 5#8 0#8 []) = true ∧ (wait 5#8 0#8 []).need.toNat ≤ (arrive (wait 5#8 0#8 [])).rxq.length ∧
      decode (stepWord (arrive (wait 5#8 0#8 []))) = .instr .getpay) ∧
    (needOk { idle [] with arrivals := [[0xFF#8]] } = true ∧
      (idle []).need.toNat ≤ (arrive { idle [] with arrivals := [[0xFF#8]] }).rxq.length ∧
      decode (stepWord (arrive { idle [] with arrivals := [[0xFF#8]] })) = .instr .idleSync) := by decide

/-- With nothing arriving, and with a byte arriving that is still not enough. -/
theorem wit_PollWithTooFewBytesChangesNothing :
    ((idle []).rxq ++ (idle []).arrivals.headD []).length < (idle []).need.toNat ∧
    (let s : State := { wait 5#8 2#8 [] with arrivals := [[1#8]] }
     (s.rxq ++ s.arrivals.headD []).length < s.need.toNat) := by decide

theorem wit_PollReturnsExactlyOneResult : needOk (idle frameF) = true := by decide

/-- A message, and each of the four discards. -/
theorem wit_PollOnAFrameGivesItsVerdict :
    ((idle frameF).st = .idle ∧ (idle frameF).need = 1#8 ∧ payF.length = (0x0E#8 : Byte).toNat ∧
      (idle frameF).rxq = [0xFF#8, 0xFF#8, 0x01#8, 0x0E#8] ++ payF ++ []) ∧
    ([] : List Byte).length = (0#8 : Byte).toNat ∧ [9#8].length = (1#8 : Byte).toNat ∧
    verify 9#8 2#8 [0#8, 0#8] = false ∧ verify 0#8 2#8 [2#8, 2#8] = true ∧ verify 1#8 2#8 [4#8, 3#8] = true := by
  decide

theorem wit_PoseFramePatternsComeOutUnchanged :
    (idle frameF).st = .idle ∧ (idle frameF).need = 1#8 ∧ (idle frameF).arrivals = [] ∧
    (idle frameF).rxq = poseFrame 0x00000000#32 0x3F800000#32 0x40000000#32 ++ [] := by decide

/-- The longest content a registry entry can have. -/
theorem wit_AnyRegisteredKindIsDecoded :
    let e : Entry := ⟨0x42#8, 253, fun c _ => .bytes c⟩
    let c := List.replicate 253 0x11#8
    Config.RegistryOk ⟨[e, poseEntry], true⟩ ∧ e ∈ [e, poseEntry] ∧ c.length = e.contentLen ∧
      (idle (mkFrame 0x42#8 c)).st = .idle ∧ (idle (mkFrame 0x42#8 c)).need = 1#8 ∧
      (idle (mkFrame 0x42#8 c)).arrivals = [] ∧ (idle (mkFrame 0x42#8 c)).rxq = mkFrame e.id c ++ [] := by
  refine ⟨⟨by decide, ?_⟩, .head _, List.length_replicate .., rfl, rfl, rfl, (List.append_nil _).symm⟩
  intro e he
  simp only [List.mem_cons, List.not_mem_nil, or_false] at he
  rcases he with rfl | rfl <;> decide

/-- The frame of program P5, with an unregistered id, in front of `F`; its content is the twelve bytes of `F`'s. -/
theorem wit_AGoodFrameBehindAnyFrameIsFound :
    let s := idle ([0xFF#8, 0xFF#8, 0x07#8, 0x04#8] ++ [0xAA#8, 0xBB#8, 0x37#8, 0x70#8] ++ (frameF ++ []))
    s.st = .idle ∧ s.need = 1#8 ∧ s.arrivals = [] ∧ [0xAA#8, 0xBB#8, 0x37#8, 0x70#8].length = (4#8 : Byte).toNat ∧
      (payF.take 12).length = 12 ∧ mkFrame 0x01#8 (payF.take 12) = frameF := by decide

/-- Program P2's frame in two pieces with a POLL between them and one behind. -/
theorem wit_ChunkingOfAFrameDoesNotMatter :
    let pre : List Input := [.feed (frameF.take 7), pollReq, .feed (frameF.drop 7)]
    let s : State := { idle [] with inputs := pre ++ [pollReq] }
    (payF.take 12).length = 12 ∧ s.st = .idle ∧ s.need = 1#8 ∧ s.rxq = [] ∧ s.arrivals = [] ∧
      (∀ inp ∈ pre, inp.isFeedOrPoll = true) ∧ fedBytes pre = mkFrame 0x01#8 (payF.take 12) ∧
      s.inputs = pre ++ [pollReq] := by decide

theorem wit_APollThatRanDryLosesNothing :
    needOk (idle (frameF.take 7)) = true ∧ (idle (frameF.take 7)).arrivals = [] ∧
    gives (exec .poll (idle (frameF.take 7)))
      (fun t => decide (t.results = (idle (frameF.take 7)).results ++ [.nothing .notEnough none])) = true := by decide

theorem wit_ArrivalsDuringAPollDoNotMatter :
    needOk { idle (frameF.take 3) with arrivals := [[], frameF.drop 3] } = true ∧
    gives (exec .poll { idle (frameF.take 3) with arrivals := [[], frameF.drop 3] })
      (fun t => decide (t.results = [] ++ [msgF] ∧ msgF ≠ .nothing .notEnough none)) = true := by decide

/-- Program P13, its bytes in two pieces. -/
theorem wit_NoiseWithoutASyncPairNeverReports :
    let s : State := { idle [] with
      inputs := [.feed [0xFF#8, 0x00#8, 0xFF#8], pollReq, .feed [0x01#8, 0xFE#8, 0xFF#8, 0x7F#8], pollReq] }
    s.st = .idle ∧ s.need = 1#8 ∧ s.rxq = [] ∧ s.arrivals = [] ∧ (∀ inp ∈ s.inputs, inp.isFeedOrPoll = true) ∧
      noSyncPair (fedBytes s.inputs) = true := by decide

/-- Each of the three states, with exactly 257 bytes. -/
theorem wit_EnoughBytesAlwaysBringTheCoreBackToIdle :
    ∀ s ∈ [at_ .sawSecondSync 1#8 0#8 0#8 (List.replicate 257 0xFF#8),
        at_ .haveMsgId 1#8 0#8 0#8 (List.replicate 257 0xFF#8), wait 0#8 0xFF#8 (List.replicate 257 0xFF#8)],
      needOk s = true ∧ (s.st = .sawSecondSync ∨ s.st = .haveMsgId ∨ s.st = .haveMsgLen) ∧ 257 ≤ s.rxq.length := by
  decide +kernel

theorem wit_EveryStepKeepsTheInvariant :
    State.Inv { wait 5#8 1#8 [] with inputs := [.feed [9#8]], pbuf := [(254, 7#8)] } ∧
    step { wait 5#8 1#8 [] with inputs := [.feed [9#8]], pbuf := [(254, 7#8)] } =
      .next { wait 5#8 1#8 [9#8] with pbuf := [(254, 7#8)] } :=
  ⟨by unfold State.Inv; decide, rfl⟩

/-- For each clause an operation that does change the register the clause is about. -/
theorem wit_OnlyTheNamedOperationsWriteEachRegister :
    gives (exec (.getlen 5#8) (at_ .haveMsgId 1#8 1#8 0#8 [5#8]))
      (fun t => decide (t.need ≠ 1#8 ∧ t.msgLen ≠ 0#8)) = true ∧
    gives (exec (.getid 5#8) (at_ .sawSecondSync 1#8 1#8 0#8 [5#8]))
      (fun t => decide (t.msgId ≠ 1#8 ∧ t.st ≠ .sawSecondSync ∧ t.rxq ≠ [5#8])) = true ∧
    gives (exec .getpay (wait 5#8 1#8 [9#8])) (fun t => decide (t.pbuf ≠ [] ∧ t.results ≠ [])) = true ∧
    gives (exec .ckClr (idle [])) (fun t => decide (t.a ≠ 0xCE#8 ∧ t.b ≠ 0x31#8)) = true ∧
    gives (exec .ckRes (idle [])) (fun t => decide (t.sums ≠ [])) = true ∧
    gives (exec .poll { idle [] with arrivals := [[]] }) (fun t => decide (t.arrivals ≠ [[]])) = true := by decide

/-- A step that takes a byte, one that is not enabled, a GETPAY that takes two and leaves one, an operation that reads
nothing. -/
theorem wit_TheStreamNeverMovesBackwards :
    exec .idleSync (idle [0xFF#8]) = .next { idle [] with st := .sawFirstSync } ∧
    exec .idleSync (idle []) = .next (idle []) ∧
    gives (exec .getpay (wait 5#8 2#8 [1#8, 2#8, 3#8])) (fun t => decide (t.rxq = [3#8])) = true ∧
    bytesRead .getpay (wait 5#8 2#8 [1#8, 2#8, 3#8]) = 2 ∧
    exec .ckClr (idle [7#8]) = .next { idle [7#8] with a := 0#8, b := 0#8 } :=
  ⟨rfl, rfl, by decide, by decide, rfl⟩

/-- One for each way an operation is asked for. -/
theorem wit_AStepRunsTheDecodedOperation :
    (({ idle [] with inputs := [.call 1#2] } : State).inputs = .call 1#2 :: [] ∧
      decode ⟨.call, (1#2 : BitVec 2).setWidth 16, 0#8⟩ = .instr .poll) ∧
    (({ idle [] with inputs := [.ckop 1#2 7#8] } : State).inputs = .ckop 1#2 7#8 :: [] ∧
      decode ⟨.ckop, (1#2 : BitVec 2).setWidth 16, 7#8⟩ = .instr (.ckAbs 7#8)) ∧
    (let s : State := { idle [0xFF#8] with inputs := [.assemble] }
     s.inputs = .assemble :: [] ∧ s.need.toNat ≤ s.rxq.length ∧ decode (stepWord s) = .instr .idleSync) ∧
    (let s : State := { held 0x01#8 0x0E#8 payF with inputs := [.dispatch] }
     s.inputs = .dispatch :: [] ∧ decode (frameWord s) = .instr .pose) := by decide

theorem wit_TheOtherStepsFeedOrRest :
    (idle []).inputs = [] ∧ ({ idle [] with inputs := [.feed [1#8]] } : State).inputs = [.feed [1#8]] ∧
    ({ idle [] with inputs := [.call 0#2] } : State).inputs = [.call 0#2] ∧
    (let s : State := { idle [] with inputs := [.assemble] }
     s.inputs = [.assemble] ∧ s.rxq.length < s.need.toNat) := by decide

theorem wit_ResetWinsAndTheReservedCkOpIsRefused :
    ({ idle [] with inputs := [.call 3#2] } : State).inputs = [.call 3#2] ∧
    ({ idle [] with inputs := [.ckop 3#2 0xFF#8] } : State).inputs = [.ckop 3#2 0xFF#8] := by decide

/-- A `NEED` that breaks R22; another byte at the head; a state of another row. -/
theorem wit_AStepThatIsNotSelectedIsRefused :
    (encode .idleSync).fmt = .step ∧ Instr.wellFormed .idleSync = true ∧
    needOk (at_ .idle 2#8 0#8 0#8 [0xFF#8]) = false ∧
    ((idle [0xFE#8]).need.toNat ≤ (idle [0xFE#8]).rxq.length ∧
      decode (stepWord (idle [0xFE#8])) ≠ .instr .idleSync) ∧
    (∀ b : Byte, decode ⟨.step, stepSel (at_ .sawFirstSync 1#8 0#8 0#8 []).st.code b, 0#8⟩ ≠ .instr .idleSync) := by
  decide +kernel

/-- `{ID, LEN}` of another row; a payload that does not verify. -/
theorem wit_AnOutcomeThatDoesNotApplyIsRefused :
    (encode .pose).fmt = .frame ∧ Instr.wellFormed .pose = true ∧
    decode (frameWord (held 1#8 2#8 [4#8, 3#8])) ≠ .instr .pose ∧
    Memory.readBytes (held 0x01#8 0x0E#8 (List.replicate 14 0#8)).pbuf 0 14 = some (List.replicate 14 0#8) ∧
    verify 0x01#8 0x0E#8 (List.replicate 14 0#8) = false := by decide

theorem wit_PollInAnImpossibleStateIsRefused :
    needOk (at_ .idle 0#8 0#8 0#8 []) = false ∧
    (arrive (at_ .idle 0#8 0#8 0#8 [])).need.toNat ≤ (arrive (at_ .idle 0#8 0#8 0#8 [])).rxq.length := by decide

/-- One for each of the four kinds of input. -/
theorem wit_HostRequestsAlwaysComplete :
    (let s : State := { idle [] with inputs := [.feed [0xFF#8]] }
     s.Inv ∧ s.inputs = .feed [0xFF#8] :: []) ∧
    (let s : State := { idle frameF with inputs := [.call 1#2] }
     s.Inv ∧ s.inputs = .call 1#2 :: []) ∧
    (let s : State := { idle [] with inputs := [.ckop 2#2 0#8] }
     s.Inv ∧ s.inputs = .ckop 2#2 0#8 :: [] ∧ (2#2 : BitVec 2) ≠ 3#2) ∧
    (let s : State := { wait 5#8 0#8 [] with inputs := [.assemble] }
     s.Inv ∧ s.inputs = .assemble :: []) := by
  unfold State.Inv; decide

theorem wit_DecodeOfEncodeIsTheOperation :
    Instr.wellFormed (.unknown 0xFF#8 0x0E#8) = true ∧ Instr.wellFormed (.poseBadlen 0x0F#8) = true ∧
    Instr.wellFormed (.idleSkip 0xFE#8) = true := by decide

/-- All three rows of FRAME apply to `0x010E`. -/
theorem wit_TheRowWithMostMaskBitsWins :
    (0x010E#16 : BitVec 16).toNat < 2 ^ Format.frame.width ∧
    (frameRows.filter fun r => r.applies ⟨.frame, 0x010E#16, 0#8⟩).length = 3 := by decide

/-- A registered id with its length (the longest), with another length, and an id that is not registered. -/
theorem wit_FrameRowsAreThoseOfTheRegistry :
    let e : Entry := ⟨0x42#8, 253, fun c _ => .bytes c⟩
    Config.RegistryOk ⟨[e], true⟩ ∧ e ∈ [e] ∧ e.id = 0x42#8 ∧ (0xFF#8 : Byte).toNat = e.contentLen + 2 ∧
      (0xFE#8 : Byte).toNat ≠ e.contentLen + 2 ∧ (∀ e' ∈ [e], e'.id ≠ 0x41#8) ∧
      (⟨.frame, 0x010E#16, 0#8⟩ : OpWord).fmt = .frame := by
  refine ⟨⟨by decide, ?_⟩, .head _, rfl, by decide, by decide, ?_, rfl⟩ <;>
  · intro e he
    obtain rfl := List.mem_singleton.mp he
    decide

theorem wit_GetpayPerformsTheGeneratedRow :
    hardware.RegistryOk ∧ Waits (wait 1#8 2#8 [4#8, 3#8]) [4#8, 3#8] [] ∧ verify 1#8 2#8 [4#8, 3#8] = true := by
  refine ⟨⟨by decide, ?_⟩, by unfold Waits; decide, by decide⟩
  intro e he
  obtain rfl := List.mem_singleton.mp he
  decide

/-- A lone `0xFF` seen, a POLL next, more noise behind it. -/
theorem wit_NoiseStaysNoiseAtEveryStep :
    let s : State := { at_ .sawFirstSync 1#8 0#8 0#8 [0x00#8, 0xFF#8] with inputs := [pollReq, .feed [0x01#8]] }
    s.Noise ∧ gives (step s)
      (fun t => decide (t.results = [.nothing .notEnough none] ∧ t.st = .sawFirstSync)) = true := by
  unfold State.Noise; decide

end Sys2Proof.Tests
end

section
/-! SUPPORT. Proofs of the checksum unit's statements (40_checksum.md R110 to R113, R117). -/

namespace Sys2Proof.Machine

/-- CK.CLR's selector, whatever the data (R89). -/
theorem decode_ckClr (d : Byte) : decode ⟨.ckop, 0b00#16, d⟩ = .instr .ckClr := decode_ckop d 0#2

/-- CK.ABS's selector, its byte on the data lines (R89). -/
theorem decode_ckAbs (d : Byte) : decode ⟨.ckop, 0b01#16, d⟩ = .instr (.ckAbs d) := decode_ckop d 1#2

/-- CK.RES's selector, whatever the data (R89). -/
theorem decode_ckRes (d : Byte) : decode ⟨.ckop, 0b10#16, d⟩ = .instr .ckRes := decode_ckop d 2#2

theorem exec_ckClr (s : State) : exec .ckClr s = .next { s with a := 0#8, b := 0#8 } := rfl

theorem exec_ckAbs (d : Byte) (s : State) :
    exec (.ckAbs d) s = .next { s with a := (absorb (s.a, s.b) d).1, b := (absorb (s.a, s.b) d).2 } := rfl

theorem exec_ckRes (s : State) : exec .ckRes s = .next { s with sums := s.sums ++ [sumOf (s.a, s.b)] } := rfl

/-- Byte addition drops the carry (R115). -/
theorem byte_add_eq_ofNat_mod (x y : Byte) : x + y = BitVec.ofNat 8 ((x.toNat + y.toNat) % 256) := by
  apply BitVec.eq_of_toNat_eq
  simp

/-- Both accumulators after one byte, in plain arithmetic (R111). -/
theorem absorb_eq_ofNat_mod (a b d : Byte) : absorb (a, b) d =
    (BitVec.ofNat 8 ((a.toNat + d.toNat) % 256),
      BitVec.ofNat 8 ((b.toNat + (a.toNat + d.toNat) % 256) % 256)) := by
  have hb : b + (a + d) = BitVec.ofNat 8 ((b.toNat + (a.toNat + d.toNat) % 256) % 256) := by
    rw [byte_add_eq_ofNat_mod b, BitVec.toNat_add]
  rw [absorb, hb, byte_add_eq_ofNat_mod a]

/-- The concatenation `{A, B}` as a shift and an or (R112). -/
theorem sumOf_eq_shift_or (a b : Byte) : sumOf (a, b) = (a.setWidth 16 <<< 8) ||| b.setWidth 16 := by
  rw [sumOf, BitVec.append_def, BitVec.shiftLeftZeroExtend_eq, BitVec.setWidth'_eq]

/-- A program whose first operation answers `t` goes on from `t`. -/
theorem execAll_cons {i : Instr} {s t : State} (h : exec i s = .next t) (is : List Instr) :
    execAll (i :: is) s = execAll is t := by
  simp only [execAll, h]

/-- CK.ABS of each byte in order leaves the fold of `absorb` in the accumulators and changes nothing else. -/
theorem execAll_map_ckAbs_append (bytes : List Byte) (is : List Instr) (s : State) :
    execAll (bytes.map Instr.ckAbs ++ is) s = execAll is
      { s with a := (bytes.foldl absorb (s.a, s.b)).1, b := (bytes.foldl absorb (s.a, s.b)).2 } := by
  induction bytes generalizing s with
  | nil => rfl
  | cons d bytes ih =>
    rw [List.map_cons, List.cons_append, execAll_cons (exec_ckAbs d s), ih, List.foldl_cons]

/-- What CK.CLR, CK.ABS of each byte and CK.RES leave behind: the start's `A` and `B` stand nowhere in it (R113). -/
theorem execAll_clr_abs_res (bytes : List Byte) (s : State) :
    execAll (.ckClr :: (bytes.map Instr.ckAbs ++ [.ckRes])) s = .next
      { s with a := (bytes.foldl absorb (0#8, 0#8)).1, b := (bytes.foldl absorb (0#8, 0#8)).2,
               sums := s.sums ++ [compute bytes] } := by
  rw [execAll_cons (exec_ckClr s), execAll_map_ckAbs_append, execAll_cons (exec_ckRes _), execAll, compute]

/-- A payload closed by the checksum of its own header and content verifies, at every content length (R117). -/
theorem verify_append_le16_compute (id len : Byte) (c : List Byte) :
    verify id len (c ++ le16 (compute (id :: len :: c))) = true := by
  rw [le16, verify_append, unle16_le16, beq_self_eq_true]

/-- Settles O4, by the state that the whole sequence leaves: CK.CLR clears, CK.ABS folds, CK.RES hands the sum out. -/
theorem computeIsClearAbsorbRead : Obligations.ComputeIsClearAbsorbRead := by
  intro bytes s
  exact ⟨_, execAll_clr_abs_res bytes s, rfl⟩

/-- Settles O6: the bound on the content is not needed, VERIFY compares against the field it is given. -/
theorem builtPayloadAlwaysVerifies : Obligations.BuiltPayloadAlwaysVerifies :=
  fun id c _ => verify_append_le16_compute id (BitVec.ofNat 8 (c.length + 2)) c

/-- Settles O1, by CK.CLR's decode row and its meaning. -/
theorem ckClrClearsBothAccumulators : Obligations.CkClrClearsBothAccumulators :=
  fun d s => ⟨decode_ckClr d, exec_ckClr s⟩

/-- Settles O2, by CK.ABS's decode row and `absorb` in plain arithmetic. -/
theorem ckAbsAddsToAThenNewAToB : Obligations.CkAbsAddsToAThenNewAToB := by
  intro d s
  refine ⟨decode_ckAbs d, ?_⟩
  rw [exec_ckAbs, absorb_eq_ofNat_mod]

/-- Settles O3, by CK.RES's decode row and `sumOf` as a shift and an or. -/
theorem ckResHandsOutAHighBLow : Obligations.CkResHandsOutAHighBLow := by
  intro d s
  refine ⟨decode_ckRes d, ?_⟩
  rw [exec_ckRes, sumOf_eq_shift_or]

end Sys2Proof.Machine
end

section
/-! SUPPORT. Proofs of the frame assembler's statements (41_frame_assembler.md R130 to R136, R138, R139). -/

namespace Sys2Proof.Machine

/-! ## Which step is selected, and that performing it is firing it -/

/-- The step that a state's `ST` and a byte select (R86). -/
def selectedStep : AsmState → Byte → Instr
  | .idle, b => if b = syncByte then .idleSync else .idleSkip b
  | .sawFirstSync, b => if b = syncByte then .sync1Sync else .sync1Miss b
  | .sawSecondSync, b => .getid b
  | .haveMsgId, b => .getlen b
  | .haveMsgLen, _ => .getpay

/-- The decoder reads every STEP selector as the step it selects. -/
theorem decode_stepSel (st : AsmState) (b : Byte) :
    decode ⟨.step, stepSel st.code b, 0#8⟩ = .instr (selectedStep st b) := by
  cases st
  · exact decode_step_idle b
  · exact decode_step_first b
  · exact decode_step_second b
  · exact decode_step_id b
  · exact decode_step_len b

theorem decode_stepSel_iff {st : AsmState} {b : Byte} {i : Instr} :
    decode ⟨.step, stepSel st.code b, 0#8⟩ = .instr i ↔ i = selectedStep st b := by
  rw [decode_stepSel, Decoded.instr.injEq, eq_comm]

theorem decode_stepWord_iff {s : State} {i : Instr} :
    decode (stepWord s) = .instr i ↔ i = selectedStep s.st (headByte s) := decode_stepSel_iff

theorem headByte_cons {s : State} {b : Byte} {rest : List Byte} (hq : s.rxq = b :: rest) : headByte s = b := by
  rw [headByte, hq, List.headD_cons]

/-- What is selected is an operation of the STEP format. -/
theorem selectedStep_fmt (st : AsmState) (b : Byte) : (encode (selectedStep st b)).fmt = .step := by
  cases st <;> simp only [selectedStep]
  case idle | sawFirstSync => split_ifs <;> rfl
  all_goals rfl

/-- GETPAY is the step of `HaveMsgLen` and of no other state. -/
theorem selectedStep_eq_getpay_iff (st : AsmState) (b : Byte) : selectedStep st b = .getpay ↔ st = .haveMsgLen := by
  cases st <;> simp only [selectedStep]
  case idle | sawFirstSync => split_ifs <;> simp
  all_goals simp

/-- A STEP operation by itself is that step fired under this hardware's registry. -/
theorem exec_eq_deliver_fireStep {i : Instr} (hi : (encode i).fmt = .step) (s : State) :
    exec i s = deliver (fireStep hardware i s) := by
  cases i
  case idleSync | idleSkip | sync1Sync | sync1Miss | getid | getlen | getpay => rfl
  all_goals cases hi

/-- The selected step by itself is what a POLL fires. -/
theorem exec_eq_deliver_fireSelected {s : State} {i : Instr} (hi : decode (stepWord s) = .instr i) :
    exec i s = deliver (fireSelected hardware s) := by
  have hf : (encode i).fmt = .step := by rw [decode_stepWord_iff.mp hi, selectedStep_fmt]
  rw [exec_eq_deliver_fireStep hf, fireSelected, hi]

/-- `deliver` only adds to the results: what the assembler's own registers and the queue hold is the fired state's. -/
theorem deliver_next (u : State) (o : Option PollResult) :
    ∃ t, deliver (.next (u, o)) = .next t ∧ t.st = u.st ∧ t.need = u.need ∧ t.rxq = u.rxq := by
  cases o with
  | none => exact ⟨u, rfl, rfl, rfl, rfl⟩
  | some r => exact ⟨hand r u, rfl, rfl, rfl, rfl⟩

/-! ## The six steps that read one byte (R131 to R136) -/

/-- With a head byte, the step that `ST` and that byte select is performed as a POLL fires it, if it does not yield. -/
theorem decode_exec_of_fireSelected {s u : State} {st : AsmState} {b : Byte} {rest : List Byte} (hst : s.st = st)
    (hq : s.rxq = b :: rest) (h : fireSelected hardware s = .next (u, none)) :
    decode (stepWord s) = .instr (selectedStep st b) ∧ exec (selectedStep st b) s = .next u := by
  have hd : decode (stepWord s) = .instr (selectedStep st b) := by
    rw [decode_stepWord_iff, hst, headByte_cons hq]
  refine ⟨hd, ?_⟩
  rw [exec_eq_deliver_fireSelected hd, h]
  rfl

/-- Settles O9, by what `Idle` does with its head byte. -/
theorem idleSyncTakesTheFirstSyncByte : Obligations.IdleSyncTakesTheFirstSyncByte :=
  fun _ _ hst hn hq => decode_exec_of_fireSelected hst hq (fireSelected_idle _ hst hn hq)

/-- Settles O10, by what `Idle` does with its head byte. -/
theorem idleSkipDropsOneByte : Obligations.IdleSkipDropsOneByte := by
  intro s b rest hst hn hq hb
  have hb' : b ≠ syncByte := hb
  have h := decode_exec_of_fireSelected hst hq (fireSelected_idle _ hst hn hq)
  rw [selectedStep, if_neg hb', if_neg hb', ← hst] at h
  exact h

/-- Settles O11, by what `SawFirstSync` does with its head byte. -/
theorem sync1SyncTakesTheSecondSyncByte : Obligations.Sync1SyncTakesTheSecondSyncByte :=
  fun _ _ hst hn hq => decode_exec_of_fireSelected hst hq (fireSelected_first _ hst hn hq)

/-- Settles O12, by what `SawFirstSync` does with its head byte. -/
theorem sync1MissDropsTheByteAndGoesIdle : Obligations.Sync1MissDropsTheByteAndGoesIdle := by
  intro s b rest hst hn hq hb
  have hb' : b ≠ syncByte := hb
  have h := decode_exec_of_fireSelected hst hq (fireSelected_first _ hst hn hq)
  rw [selectedStep, if_neg hb', if_neg hb'] at h
  exact h

/-- Settles O13, by what `SawSecondSync` does with its head byte. -/
theorem getidLatchesAnyByteAsId : Obligations.GetidLatchesAnyByteAsId :=
  fun _ _ _ hst hn hq => decode_exec_of_fireSelected hst hq (fireSelected_second _ hst hn hq)

/-- Settles O14, by what `HaveMsgId` does with its head byte. -/
theorem getlenLatchesAnyByteAsLenAndNeed : Obligations.GetlenLatchesAnyByteAsLenAndNeed :=
  fun _ _ _ hst hn hq => decode_exec_of_fireSelected hst hq (fireSelected_id _ hst hn hq)

/-! ## Enabled and not enabled (R130) -/

/-- This hardware's checks always yield something: an unknown id ends the POLL too (D7). -/
theorem verdict_hardware_isSome (id len : Byte) (p : List Byte) : (verdict hardware id len p).isSome = true := by
  have hy : hardware.yieldOnUnknown = true := rfl
  simp only [verdict, hy, if_true]
  split_ifs
  · rfl
  · rfl
  · cases lookup hardware id with
    | none => rfl
    | some e => cases h : applyEntry e (contentOf p) <;> simp [h]

/-- An enabled step answers, takes exactly `NEED` bytes, and yields exactly when it is a GETPAY (R130, R140). -/
theorem fireSelected_takes_need {s : State} (hn : needOk s = true) (he : enabled s = true) :
    ∃ u o, fireSelected hardware s = .next (u, o) ∧ u.rxq = s.rxq.drop s.need.toNat ∧
      (o.isSome = true ↔ s.st = .haveMsgLen) := by
  have hneed := (needOk_iff s).mp hn
  rcases fireSelected_cases hardware hn he with ⟨b, rest, hst, hq, h⟩ | ⟨b, rest, hst, hq, h⟩ |
    ⟨b, rest, hst, hq, h⟩ | ⟨b, rest, hst, hq, h⟩ | ⟨p, rest, hst, hq, hp, h⟩ <;> rw [hst] at hneed
  case inr.inr.inr.inr =>
    refine ⟨_, _, h, ?_, by simp [verdict_hardware_isSome, hst]⟩
    rw [hneed, needFor, ← hp, hq, List.drop_left]
    rfl
  all_goals exact ⟨_, _, h, by simp [hq, hneed, needFor], by simp [hst]⟩

/-- A step of the state that is not enabled changes nothing, whatever byte selected it. -/
theorem fireStep_notEnabled (cfg : Config) {s : State} (hn : needOk s = true) (hq : s.rxq.length < s.need.toNat)
    (b : Byte) : fireStep cfg (selectedStep s.st b) s = .next (s, none) := by
  rw [needOk_iff] at hn
  have empty (h1 : s.need = 1#8) : s.rxq = [] := by
    rw [h1] at hq
    exact List.length_eq_zero_iff.mp (Nat.lt_one_iff.mp hq)
  cases hst : s.st <;> rw [hst] at hn <;> simp only [selectedStep]
  case idle | sawFirstSync => split_ifs <;> simp only [fireStep] <;> exact byteStep_empty hst hn (empty hn)
  case sawSecondSync | haveMsgId => simp only [fireStep]; exact byteStep_empty hst hn (empty hn)
  case haveMsgLen => exact fireGetpay_notEnabled cfg hst hn (by rwa [hn] at hq)

/-- Settles O15, by what an enabled step takes and by the steps on too short a queue. -/
theorem stepTakesExactlyNeedBytesOrDoesNothing : Obligations.StepTakesExactlyNeedBytesOrDoesNothing := by
  intro s hn
  constructor
  · intro he i hi
    obtain ⟨u, o, h, hq, -⟩ := fireSelected_takes_need hn ((enabled_iff s).mpr he)
    obtain ⟨t, ht, -, -, htq⟩ := deliver_next u o
    exact ⟨t, by rw [exec_eq_deliver_fireSelected hi, h, ht], htq.trans hq⟩
  · intro hq b i hi
    rw [decode_stepSel_iff.mp hi, exec_eq_deliver_fireStep (selectedStep_fmt _ _), fireStep_notEnabled _ hn hq]
    rfl

/-! ## The next-state table (R138) -/

/-- A byte step that answers on an enabled state is in its own state, and its byte test accepts the head byte. -/
theorem byteStep_enabled {want : AsmState} {ok : Byte → Bool} {f : Byte → State → State} {s u : State}
    {o : Option PollResult} (he : enabled s = true)
    (h : byteStep want (fun b t => whenByte (ok b) (f b t)) s = .next (u, o)) :
    s.st = want ∧ ok (headByte s) = true := by
  obtain ⟨hst, hn, ⟨hq, -⟩ | ⟨b, rest, hq, hk⟩⟩ := byteStep_cases h
  · obtain ⟨b, rest, hq'⟩ := head_of_enabled hn he
    cases hq.symm.trans hq'
  · rw [headByte_cons hq]
    exact ⟨hst, (whenByte_cases hk).1⟩

/-- On an enabled state only the selected step answers. -/
theorem eq_selectedStep_of_fireStep (cfg : Config) {s u : State} {o : Option PollResult} {j : Instr}
    (he : enabled s = true) (h : fireStep cfg j s = .next (u, o)) : j = selectedStep s.st (headByte s) := by
  cases j <;> simp only [fireStep] at h
  case idleSync | sync1Sync | getid | getlen =>
    obtain ⟨hst, hb⟩ := byteStep_enabled he h
    simp only [beq_iff_eq] at hb
    simp [hst, hb, selectedStep]
  case idleSkip | sync1Miss =>
    obtain ⟨hst, hb⟩ := byteStep_enabled he h
    simp only [Bool.and_eq_true, beq_iff_eq, bne_iff_ne] at hb
    obtain ⟨rfl, hne⟩ := hb
    simp [hst, hne, selectedStep]
  case getpay =>
    obtain ⟨hst, -⟩ := fireGetpay_cases cfg h
    simp [hst, selectedStep]
  all_goals cases h

/-- No other edges: on an enabled state a STEP operation that answers is the one the state selects. -/
theorem eq_of_exec_next {s u : State} {i j : Instr} (he : enabled s = true) (hi : decode (stepWord s) = .instr i)
    (hj : (encode j).fmt = .step) (h : exec j s = .next u) : j = i := by
  rw [exec_eq_deliver_fireStep hj] at h
  obtain ⟨v, o, hv, -⟩ := deliver_next_cases h
  rw [eq_selectedStep_of_fireStep hardware he hv, decode_stepWord_iff.mp hi]

/-- GETPAY's row: back to `Idle` with `NEED` 1 and `LEN` bytes consumed (R137). -/
theorem getpay_row {s : State} (hst : s.st = .haveMsgLen) (hn : s.need = s.msgLen) (he : enabled s = true) :
    decode (stepWord s) = .instr .getpay ∧ ∃ t, exec .getpay s = .next t ∧
      t.st = .idle ∧ t.need = 1#8 ∧ t.rxq = s.rxq.drop s.msgLen.toNat := by
  have hd : decode (stepWord s) = .instr .getpay := by rw [decode_stepWord_iff, hst]; rfl
  obtain ⟨p, rest, hq, hp⟩ := payload_of_enabled hn he
  obtain ⟨t, ht, htst, htn, htq⟩ := deliver_next (s.afterPayload p rest) (verdict hardware s.msgId s.msgLen p)
  refine ⟨hd, t, ?_, htst, htn, ?_⟩
  · rw [exec_eq_deliver_fireSelected hd, fireSelected_len _ hst, fireGetpay_next _ hst hn hq hp, ht]
  · rw [htq, ← hp, hq, List.drop_left]
    rfl

/-- Settles O16: the rows of R131 to R137 for the state at hand, and no other step answers. -/
theorem enabledStepIsOneRowOfTheNextStateTable : Obligations.EnabledStepIsOneRowOfTheNextStateTable := by
  intro s hn hlen
  have he := (enabled_iff s).mpr hlen
  rw [needOk_iff] at hn
  have only {i : Instr} (hi : decode (stepWord s) = .instr i) (j : Instr) (u : State) :
      (encode j).fmt = .step → exec j s = .next u → j = i := eq_of_exec_next he hi
  cases hst : s.st <;> rw [hst] at hn
  case idle =>
    obtain ⟨b, rest, hq⟩ := head_of_enabled hn he
    by_cases hb : b = 0xFF#8
    · subst hb
      obtain ⟨hd, hx⟩ := idleSyncTakesTheFirstSyncByte s rest hst hn hq
      exact ⟨_, _, hd, hx, only hd, by simp [hq, hn, needFor]⟩
    · obtain ⟨hd, hx⟩ := idleSkipDropsOneByte s b rest hst hn hq hb
      exact ⟨_, _, hd, hx, only hd, by simp [hq, hn, needFor, hb, hst]⟩
  case sawFirstSync =>
    obtain ⟨b, rest, hq⟩ := head_of_enabled hn he
    by_cases hb : b = 0xFF#8
    · subst hb
      obtain ⟨hd, hx⟩ := sync1SyncTakesTheSecondSyncByte s rest hst hn hq
      exact ⟨_, _, hd, hx, only hd, by simp [hq, hn, needFor]⟩
    · obtain ⟨hd, hx⟩ := sync1MissDropsTheByteAndGoesIdle s b rest hst hn hq hb
      exact ⟨_, _, hd, hx, only hd, by simp [hq, hn, needFor, hb]⟩
  case sawSecondSync =>
    obtain ⟨b, rest, hq⟩ := head_of_enabled hn he
    obtain ⟨hd, hx⟩ := getidLatchesAnyByteAsId s b rest hst hn hq
    exact ⟨_, _, hd, hx, only hd, by simp [hq, hn, needFor]⟩
  case haveMsgId =>
    obtain ⟨b, rest, hq⟩ := head_of_enabled hn he
    obtain ⟨hd, hx⟩ := getlenLatchesAnyByteAsLenAndNeed s b rest hst hn hq
    exact ⟨_, _, hd, hx, only hd, by simp [hq]⟩
  case haveMsgLen =>
    obtain ⟨hd, t, hx, ht⟩ := getpay_row hst hn he
    exact ⟨_, t, hd, hx, only hd, by simp [ht]⟩

/-! ## The driving loop (R139) -/

/-- Settles O27, by the three ways a POLL goes on: too few bytes, a step that yields, a step that does not. -/
theorem pollIsTheDrivingLoop : Obligations.PollIsTheDrivingLoop := by
  intro s hn
  refine ⟨decode_call 1#2, fun hq => ?_, fun hq i hi => ?_⟩
  · have he : enabled (arrive s) = false := by
      rw [← Bool.not_eq_true, enabled_iff, arrive_need]
      omega
    rw [show exec .poll s = pollWith hardware s from rfl, pollWith_notEnough _ he, hand, arrive_results]
    rfl
  have hn' : needOk (arrive s) = true := (needOk_arrive s).trans hn
  have he : enabled (arrive s) = true := (enabled_iff _).mpr (by rwa [arrive_need])
  obtain ⟨u, o, hu, -, ho⟩ := fireSelected_takes_need hn' he
  have hpay : i = .getpay ↔ o.isSome = true := by
    rw [ho, decode_stepWord_iff.mp hi, selectedStep_eq_getpay_iff]
  have hx : exec i (arrive s) = deliver (.next (u, o)) := by rw [exec_eq_deliver_fireSelected hi, hu]
  cases o with
  | some r =>
    obtain rfl := hpay.mpr rfl
    refine ⟨fun _ => ?_, fun h => absurd rfl h⟩
    rw [hx]
    exact pollWith_yield hardware he hu
  | none => exact ⟨fun h => by simp [hpay] at h, fun _ => ⟨u, hx, pollWith_step hardware hn he hu⟩⟩

end Sys2Proof.Machine
end

section
/-! SUPPORT. How GETPAY ends a frame, and the payload decoder's statement (42_payload_decoder.md R161). -/

namespace Sys2Proof.Machine

/-! ## The end of a frame, whatever GETPAY yields -/

/-- `PBUF` after a payload was written from index 0: the payload, and beyond it what was there (R188). -/
theorem read_writeBytes_zero (p : List Byte) (m : Memory) (i : Nat) :
    Memory.read (Memory.writeBytes m 0 p) i = if i < p.length then p[i]? else Memory.read m i := by
  split_ifs with h
  · simpa using Memory.read_writeBytes p m 0 i h
  · exact Memory.read_writeBytes_other p m 0 i (by omega)

/-- The state that GETPAY leaves, with its result handed over, is the frame ended with that result (R188). -/
theorem frameEnded_hand_afterPayload (s : State) (p rest : List Byte) (r : PollResult) :
    FrameEnded s (hand r (s.afterPayload p rest)) p rest r :=
  ⟨rfl, read_writeBytes_zero p s.pbuf⟩

/-- An enabled GETPAY ends the frame with the result its four checks give (R137, R187). -/
theorem exec_getpay_of_verdict {s : State} {p rest : List Byte} {r : PollResult} (hst : s.st = .haveMsgLen)
    (hn : s.need = s.msgLen) (hq : s.rxq = p ++ rest) (hp : p.length = s.msgLen.toNat)
    (hv : verdict hardware s.msgId s.msgLen p = some r) :
    ∃ t, exec .getpay s = .next t ∧ FrameEnded s t p rest r := by
  refine ⟨hand r (s.afterPayload p rest), ?_, frameEnded_hand_afterPayload s p rest r⟩
  rw [exec_eq_deliver_fireStep rfl, fireStep, fireGetpay_next hardware hst hn hq hp, hv, deliver]

/-! ## DECODE_POSE (R161) -/

/-- A little-endian 32-bit pattern in plain arithmetic. -/
theorem unle32_eq_ofNat (p q r s : Byte) : unle32 p q r s =
    BitVec.ofNat 32 (p.toNat + 2 ^ 8 * q.toNat + 2 ^ 16 * r.toNat + 2 ^ 24 * s.toNat) := by
  have h : (unle32 p q r s).toNat = p.toNat + 2 ^ 8 * q.toNat + 2 ^ 16 * r.toNat + 2 ^ 24 * s.toNat :=
    unle32_toNat p q r s
  rw [← h, BitVec.ofNat_toNat, BitVec.setWidth_eq]

/-- The Pose entry on a content of twelve bytes: theta, x, y on the wire become x, y, theta in the record. -/
theorem applyEntry_poseEntry (t0 t1 t2 t3 x0 x1 x2 x3 y0 y1 y2 y3 : Byte) :
    applyEntry poseEntry [t0, t1, t2, t3, x0, x1, x2, x3, y0, y1, y2, y3] =
      some (.pose (unle32 x0 x1 x2 x3) (unle32 y0 y1 y2 y3) (unle32 t0 t1 t2 t3)) := rfl

/-- A payload that verifies and whose content the registered entry decodes yields its message (R163). -/
theorem verdict_of_applyEntry {cfg : Config} {id len : Byte} {p : List Byte} {e : Entry} {fields : Fields}
    (hv : verify id len p = true) (hk : lookup cfg id = some e) (he : applyEntry e (contentOf p) = some fields) :
    verdict cfg id len p = some (.message id fields) := by
  have h2 : ¬ p.length < 2 := fun h => by simp [verify_short id len p h] at hv
  simp [verdict, h2, hv, hk, he]

/-- Settles O21: the four checks yield the Pose of the content, and GETPAY ends the frame with what they yield. -/
theorem getpayOfPoseFrameIsItsPose : Obligations.GetpayOfPoseFrameIsItsPose := by
  intro s t0 t1 t2 t3 x0 x1 x2 x3 y0 y1 y2 y3 lo hi rest hst hn hid hlen hq hv
  have hk : lookup hardware 0x01#8 = some poseEntry := rfl
  have hc := applyEntry_poseEntry t0 t1 t2 t3 x0 x1 x2 x3 y0 y1 y2 y3
  simp only [unle32_eq_ofNat] at hc
  refine exec_getpay_of_verdict hst hn hq (by rw [hlen]; rfl) ?_
  rw [hid, hlen]
  exact verdict_of_applyEntry hv hk hc

end Sys2Proof.Machine
end

section
/-! SUPPORT. The discards of GETPAY and the POLL that finds too few bytes (60_exceptions.md R181, R183, R184, R188). -/

namespace Sys2Proof.Machine

/-! ## What the four checks yield (R187) -/

/-- A payload that verifies holds at least its checksum field (D18). -/
theorem two_le_length_of_verify {id len : Byte} {p : List Byte} (hv : verify id len p = true) : 2 ≤ p.length := by
  by_contra h
  rw [verify_short id len p (Nat.lt_of_not_le h)] at hv
  cases hv

/-- Check 2: a payload that is long enough and fails VERIFY yields CKSUM, before any lookup (R183). -/
theorem verdict_of_verify_false (cfg : Config) {id len : Byte} {p : List Byte} (h2 : 2 ≤ p.length)
    (hv : verify id len p = false) : verdict cfg id len p = some (nothing .cksum) := by
  rw [verdict, if_neg (Nat.not_lt.mpr h2), if_pos hv]

/-- Check 3: a payload that verifies under an unregistered id yields UNKNOWN_ID, where an unknown id yields (R184, D7). -/
theorem verdict_of_lookup_none {cfg : Config} {id len : Byte} {p : List Byte} (hv : verify id len p = true)
    (hk : lookup cfg id = none) (hy : cfg.yieldOnUnknown = true) :
    verdict cfg id len p = some (unknownKind id) := by
  have h2 := two_le_length_of_verify hv
  simp [verdict, Nat.not_lt.mpr h2, hv, hk, hy]

/-- This hardware's registry holds `POSE_ID` and no other id (R161, D10). -/
theorem lookup_hardware_eq_none_iff (id : Byte) : lookup hardware id = none ↔ id ≠ poseId := by
  rw [ne_comm]
  simp [lookup, hardware, poseEntry]

/-! ## The statements -/

/-- Settles O18, by check 2. -/
theorem getpayOfBadChecksumIsCksum : Obligations.GetpayOfBadChecksumIsCksum := by
  intro s p rest hst hn hq hp h2 hv
  exact exec_getpay_of_verdict hst hn hq hp (verdict_of_verify_false hardware (hp ▸ h2) hv)

/-- Settles O19, by check 3 under the registry of this hardware. -/
theorem getpayOfUnregisteredIdIsUnknownId : Obligations.GetpayOfUnregisteredIdIsUnknownId := by
  intro s p rest hst hn hq hp hv hid
  have hk : lookup hardware s.msgId = none := (lookup_hardware_eq_none_iff _).mpr hid
  exact exec_getpay_of_verdict hst hn hq hp (verdict_of_lookup_none hv hk rfl)

/-- Settles O22: GETPAY is the step of `HaveMsgLen`, its four checks always yield, and with whatever they yield it ends
the frame. -/
theorem getpayAlwaysEndsTheFrame : Obligations.GetpayAlwaysEndsTheFrame := by
  intro s p rest hst hn hq hp
  obtain ⟨r, hr⟩ := Option.isSome_iff_exists.mp (verdict_hardware_isSome s.msgId s.msgLen p)
  obtain ⟨t, ht, hended⟩ := exec_getpay_of_verdict hst hn hq hp hr
  have hd : decode (stepWord s) = .instr .getpay :=
    decode_stepWord_iff.mpr ((selectedStep_eq_getpay_iff _ _).mpr hst).symm
  exact ⟨hd, t, r, ht, hended⟩

/-- Settles O28: the first sampling finds the loop's step not enabled, so the POLL hands over NOT_ENOUGH on the state
in which the bytes have arrived. -/
theorem pollWithTooFewBytesChangesNothing : Obligations.PollWithTooFewBytesChangesNothing := by
  intro s hq
  have he : enabled (arrive s) = false := by
    rw [← Bool.not_eq_true, enabled_iff, arrive_need, arrive_rxq]
    exact Nat.not_le.mpr hq
  calc exec .poll s
    _ = .next (hand (nothing .notEnough) (arrive s)) := pollWith_notEnough hardware he
    _ = _ := by rw [arrive_eq]; rfl

end Sys2Proof.Machine
end

section
/-! SUPPORT. Proofs of the encoding's statements (30_encoding.md sections 4 and 5). -/

namespace Sys2Proof.Machine

/-! ## The round trip -/

/-- Settles O52, by the decoder's answer on each selector that the encoder forms. -/
theorem decodeOfEncodeIsTheOperation : Obligations.DecodeOfEncodeIsTheOperation := by
  intro i hw
  cases i with
  | ckClr => exact decode_ckClr _
  | ckAbs d => exact decode_ckAbs d
  | ckRes => exact decode_ckRes _
  | idleSync => exact decode_step_idle _
  | idleSkip b =>
    have hb : b ≠ syncByte := bne_iff_ne.mp hw
    rw [encode, decode_step_idle, if_neg hb]
  | sync1Sync => exact decode_step_first _
  | sync1Miss b =>
    have hb : b ≠ syncByte := bne_iff_ne.mp hw
    rw [encode, decode_step_first, if_neg hb]
  | getid b => exact decode_step_second b
  | getlen b => exact decode_step_id b
  | getpay => exact decode_step_len _
  | pose => exact decode_frame _ _
  | poseBadlen len =>
    have hl : len ≠ 0x0E#8 := bne_iff_ne.mp hw
    rw [encode, decode_frame, if_pos rfl, if_neg hl]
  | unknown id len =>
    have hi : id ≠ 0x01#8 := bne_iff_ne.mp hw
    rw [encode, decode_frame, if_neg hi]
  | poll => exact decode_call 1#2
  | reset => exact decode_call 2#2

/-! ## The row with the most mask bits -/

/-- In a list ordered by falling weight, the first element that passes a test weighs at least as much as any other
that passes it. -/
theorem find?_of_pairwise_ge {α : Type} {test : α → Bool} {weight : α → Nat} {l : List α} {x : α}
    (hl : l.Pairwise fun y z => weight z ≤ weight y) (hx : x ∈ l) (htest : test x = true) :
    ∃ r ∈ l, test r = true ∧ l.find? test = some r ∧ weight x ≤ weight r := by
  induction l with
  | nil => cases hx
  | cons y l ih =>
    rw [List.pairwise_cons] at hl
    by_cases hy : test y = true
    · refine ⟨y, List.mem_cons_self, hy, List.find?_cons_of_pos hy, ?_⟩
      rcases List.mem_cons.mp hx with rfl | hx
      · exact Nat.le_refl _
      · exact hl.1 x hx
    · rcases List.mem_cons.mp hx with rfl | hx
      · exact absurd htest hy
      · obtain ⟨r, hr, hrt, hf, hw⟩ := ih hl.2 hx
        exact ⟨r, List.mem_cons_of_mem _ hr, hrt, by rw [List.find?_cons_of_neg hy, hf], hw⟩

/-- Every format lists the rows with more mask bits first (R86, R88, R89, R91). -/
theorem rowsOf_pairwise (f : Format) :
    (rowsOf f).Pairwise fun r r' => maskBits r'.mask ≤ maskBits r.mask := by
  cases f with
  | ckop => decide
  | step => decide
  | frame => rw [rowsOf, frameRows_eq]; decide
  | call => decide

/-- Settles O53: the rows stand in the order of their mask bits, and the decoder takes the first that applies. -/
theorem theRowWithMostMaskBitsWins : Obligations.TheRowWithMostMaskBitsWins := by
  intro w r' hw hr' happ
  obtain ⟨r, hr, hra, hf, hbits⟩ :=
    find?_of_pairwise_ge (test := fun r => r.applies w) (rowsOf_pairwise w.fmt) hr' happ
  refine ⟨r, hr, hra, ?_, hbits⟩
  rw [decode, if_neg (Nat.not_le.mpr hw), hf]

/-- Settles O54: each word evaluates to its row. -/
theorem wordsOfTheTableDecodeToTheirRows : Obligations.WordsOfTheTableDecodeToTheirRows := by
  unfold Obligations.WordsOfTheTableDecodeToTheirRows
  decide

/-! ## The FRAME rows of any registry -/

/-- No id twice: two entries with one id are one entry (R167). -/
theorem entry_eq_of_id_eq {cfg : Config} (hr : cfg.RegistryOk) {e e' : Entry} (he : e ∈ cfg.registry)
    (he' : e' ∈ cfg.registry) (h : e'.id = e.id) : e' = e :=
  List.inj_on_of_nodup_map hr.1 he' he h

/-- A registered content length and its checksum field fit in the length byte (R167). -/
theorem toNat_ofNat_contentLen {cfg : Config} (hr : cfg.RegistryOk) {e : Entry} (he : e ∈ cfg.registry) :
    (BitVec.ofNat 8 (e.contentLen + 2)).toNat = e.contentLen + 2 := by
  have := hr.2 e he
  rw [BitVec.toNat_ofNat]
  omega

/-- The registry finds the entry under its id (R160). -/
theorem lookup_of_mem {cfg : Config} (hr : cfg.RegistryOk) {e : Entry} (he : e ∈ cfg.registry) :
    lookup cfg e.id = some e := by
  cases hk : lookup cfg e.id with
  | none => simpa using List.find?_eq_none.mp hk e he
  | some e' =>
    have hid : e'.id = e.id := by simpa using List.find?_some hk
    rw [entry_eq_of_id_eq hr he (List.mem_of_find?_eq_some hk) hid]

/-- What the registry finds is registered, under the id asked for. -/
theorem mem_of_lookup {cfg : Config} {id : Byte} {e : Entry} (hk : lookup cfg id = some e) :
    e ∈ cfg.registry ∧ e.id = id :=
  ⟨List.mem_of_find?_eq_some hk, by simpa using List.find?_some hk⟩

section
variable {cfg : Config} {e : Entry} (id len d : Byte)

/-- The generated rows are tried in three groups: the message rows, the bad-length rows, UNKNOWN (R88). -/
theorem decodeFrame_eq (cfg : Config) : decodeFrame cfg ⟨.frame, frameSel id len, d⟩ =
    match cfg.registry.find? fun e => id = e.id ∧ len = BitVec.ofNat 8 (e.contentLen + 2) with
    | some e => .message e.id
    | none =>
      match cfg.registry.find? fun e => id = e.id with
      | some e => .badLen e.id len
      | none => .unknown id len := by
  have hm : (fun r => Row.applies r ⟨.frame, frameSel id len, d⟩) ∘ messageRow =
      fun e => decide (id = e.id ∧ len = BitVec.ofNat 8 (e.contentLen + 2)) :=
    funext fun e => messageRow_applies e id len d
  have hb : (fun r => Row.applies r ⟨.frame, frameSel id len, d⟩) ∘ badLenRow = fun e => decide (id = e.id) :=
    funext fun e => badLenRow_applies e id len d
  have hu : [unknownRow].find? (fun r => Row.applies r ⟨.frame, frameSel id len, d⟩) = some unknownRow :=
    List.find?_cons_of_pos (unknownRow_applies _ d)
  rw [decodeFrame, frameRowsFor, List.find?_append, List.find?_append, List.find?_map, List.find?_map, hm, hb]
  cases cfg.registry.find? fun e => decide (id = e.id ∧ len = BitVec.ofNat 8 (e.contentLen + 2)) with
  | some e => rfl
  | none =>
    cases cfg.registry.find? fun e => decide (id = e.id) with
    | some e => simp [badLenRow]
    | none =>
      rw [Option.map_none, Option.map_none, Option.or_none, Option.none_or, hu]
      simp [unknownRow]

/-- A registered id with its own length selects its decoder. -/
theorem decodeFrame_message (he : e ∈ cfg.registry) (hl : len = BitVec.ofNat 8 (e.contentLen + 2)) :
    decodeFrame cfg ⟨.frame, frameSel e.id len, d⟩ = .message e.id := by
  rw [decodeFrame_eq]
  cases h : cfg.registry.find? fun e' => e.id = e'.id ∧ len = BitVec.ofNat 8 (e'.contentLen + 2) with
  | some e' =>
    have := List.find?_some h
    simp only [decide_eq_true_eq] at this
    rw [this.1]
  | none => simpa [hl] using List.find?_eq_none.mp h e he

/-- A registered id with another length selects its bad-length row (D9). -/
theorem decodeFrame_badLen (hr : cfg.RegistryOk) (he : e ∈ cfg.registry)
    (hl : len ≠ BitVec.ofNat 8 (e.contentLen + 2)) :
    decodeFrame cfg ⟨.frame, frameSel e.id len, d⟩ = .badLen e.id len := by
  have hm : (cfg.registry.find? fun e' => e.id = e'.id ∧ len = BitVec.ofNat 8 (e'.contentLen + 2)) = none := by
    refine List.find?_eq_none.mpr fun e' he' h => ?_
    simp only [decide_eq_true_eq] at h
    exact hl (entry_eq_of_id_eq hr he he' h.1.symm ▸ h.2)
  rw [decodeFrame_eq, hm]
  cases h : cfg.registry.find? fun e' => e.id = e'.id with
  | some e' =>
    have := List.find?_some h
    simp only [decide_eq_true_eq] at this
    simp only [this]
  | none => simpa using List.find?_eq_none.mp h e he

/-- An id that is not registered selects UNKNOWN. -/
theorem decodeFrame_unknown (h : ∀ e ∈ cfg.registry, e.id ≠ id) :
    decodeFrame cfg ⟨.frame, frameSel id len, d⟩ = .unknown id len := by
  have hm : (cfg.registry.find? fun e => id = e.id ∧ len = BitVec.ofNat 8 (e.contentLen + 2)) = none :=
    List.find?_eq_none.mpr fun e he hc => h e he (by simp only [decide_eq_true_eq] at hc; exact hc.1.symm)
  have hb : (cfg.registry.find? fun e => id = e.id) = none :=
    List.find?_eq_none.mpr fun e he hc => h e he (by simpa using Eq.symm (of_decide_eq_true hc))
  rw [decodeFrame_eq, hm, hb]

end

/-- This hardware's decoder reads the rows generated from its registry. -/
theorem decode_eq_decodeFrame_hardware (w : OpWord) (hw : w.fmt = .frame) :
    decode w = .instr (decodeFrame hardware w).toInstr := by
  obtain ⟨f, sel, d⟩ := w
  obtain rfl : f = .frame := hw
  have hlt : ¬ 2 ^ Format.width .frame ≤ sel.toNat := Nat.not_le.mpr sel.isLt
  have happ : (fun r => Row.applies r ⟨.frame, sel, d⟩) ∘ Row.map FrameOp.toInstr =
      fun r => r.applies ⟨.frame, sel, d⟩ := rfl
  rw [decode, if_neg hlt, rowsOf, frameRows, List.find?_map, happ, decodeFrame]
  cases h : (frameRowsFor hardware).find? fun r => r.applies ⟨.frame, sel, d⟩ with
  | some r => rfl
  | none =>
    have hu := List.find?_eq_none.mp h unknownRow (by simp [frameRowsFor])
    exact absurd (unknownRow_applies sel d) hu

/-- Settles O55: the three groups of generated rows, and the decoder as the default registry's rows. -/
theorem frameRowsAreThoseOfTheRegistry : Obligations.FrameRowsAreThoseOfTheRegistry := by
  refine ⟨fun cfg id len d hr => ⟨?_, ?_, decodeFrame_unknown id len d⟩, decode_eq_decodeFrame_hardware⟩
  · rintro e he rfl hl
    exact decodeFrame_message len d he (BitVec.eq_of_toNat_eq (hl.trans (toNat_ofNat_contentLen hr he).symm))
  · rintro e he rfl hl
    refine decodeFrame_badLen len d hr he fun h => hl ?_
    rw [h, toNat_ofNat_contentLen hr he]

end Sys2Proof.Machine
end

section
/-! SUPPORT. The message-level outcomes, by themselves and inside GETPAY (42_payload_decoder.md R161 to R164,
30_encoding.md R88). -/

namespace Sys2Proof.Machine

/-! ## What the four checks yield, continued (R187) -/

/-- Check 4: a payload that verifies under a registered id with a content of another length yields CONTENT_LEN (D9). -/
theorem verdict_of_applyEntry_none {cfg : Config} {id len : Byte} {p : List Byte} {e : Entry}
    (hv : verify id len p = true) (hk : lookup cfg id = some e) (he : applyEntry e (contentOf p) = none) :
    verdict cfg id len p = some (nothing .contentLen) := by
  have h2 := two_le_length_of_verify hv
  simp [verdict, Nat.not_lt.mpr h2, hv, hk, he]

/-- A content of another length has no decoding (R163). -/
theorem applyEntry_eq_none {e : Entry} {c : List Byte} (h : c.length ≠ e.contentLen) : applyEntry e c = none :=
  dif_neg h

/-- The content of a payload is what its checksum field leaves (R56). -/
theorem contentOf_length (p : List Byte) : (contentOf p).length = p.length - 2 := by
  simp [contentOf, cksumLen]

theorem lookup_hardware_of_eq {id : Byte} (hid : id = poseId) : lookup hardware id = some poseEntry := by
  rw [hid]
  rfl

/-- A verified Pose frame whose length byte is not `0x0E` yields CONTENT_LEN (D9). -/
theorem verdict_pose_of_len_ne {id len : Byte} {p : List Byte} (hid : id = poseId) (hp : p.length = len.toNat)
    (hv : verify id len p = true) (hl : len ≠ 0x0E#8) :
    verdict hardware id len p = some (nothing .contentLen) := by
  refine verdict_of_applyEntry_none hv (lookup_hardware_of_eq hid) (applyEntry_eq_none fun h => hl ?_)
  have h2 := two_le_length_of_verify hv
  have hc : p.length - 2 = 12 := (contentOf_length p).symm.trans h
  exact BitVec.eq_of_toNat_eq (show len.toNat = 14 by omega)

/-- Settles O17: check 1 comes first, and GETPAY ends the frame with what it yields. -/
theorem getpayOfShortLengthIsBadLen : Obligations.GetpayOfShortLengthIsBadLen := by
  intro s p rest hst hn hq hp h2
  exact exec_getpay_of_verdict hst hn hq hp (verdict_some_of_short hardware _ _ (hp ▸ h2))

/-- Settles O20, by check 4 under the Pose entry. -/
theorem getpayOfWrongContentLengthIsContentLen : Obligations.GetpayOfWrongContentLengthIsContentLen := by
  intro s p rest hst hn hq hp hv hid hl
  exact exec_getpay_of_verdict hst hn hq hp (verdict_pose_of_len_ne hid hp hv hl)

/-! ## When an outcome may be performed -/

/-- The precondition shared by the outcomes, read from `PBUF` (R161, R162, R164). -/
theorem frameReady_iff (s : State) : frameReady s = true ↔
    ∃ p, Memory.readBytes s.pbuf 0 s.msgLen.toNat = some p ∧ verify s.msgId s.msgLen p = true := by
  have hl : 0 + s.msgLen.toNat ≤ pbufSize := by
    have : s.msgLen.toNat < 256 := s.msgLen.isLt
    simp only [pbufSize]; omega
  unfold frameReady
  constructor
  · intro h
    split at h
    · cases h
    · next p hr => exact ⟨p, (readBytes_of_readPbuf hr).1, h⟩
  · rintro ⟨p, hr, hv⟩
    rw [readPbuf_ok hr hl]
    exact hv

theorem whenFrame_of_ready {ok : Bool} {f : State → Fired} {s : State} (hok : ok = true) (hr : frameReady s = true) :
    whenFrame ok f s = deliver (f s) := by
  simp [whenFrame, hok, hr]

theorem whenFrame_refused {ok : Bool} {f : State → Fired} {s : State} (h : ¬ (ok = true ∧ frameReady s = true)) :
    whenFrame ok f s = .refused .notSelected :=
  if_neg (by simpa using h)

/-- The test that an outcome by itself makes of `{ID, LEN}`. -/
def outcomeTest : Instr → State → Bool
  | .pose, s => s.msgId == poseId && s.msgLen == 0x0E#8
  | .poseBadlen len, s => s.msgId == poseId && s.msgLen == len && len != 0x0E#8
  | .unknown id len, s => s.msgId == id && s.msgLen == len && (lookup hardware id).isNone
  | _, _ => false

/-- What an outcome by itself yields when its test succeeds. -/
def outcomeFired : Instr → State → Fired
  | .pose, s => frameMessage poseEntry s
  | .poseBadlen _, s => frameBadLen s
  | _, s => frameUnknown hardware s

/-- Every FRAME operation is its test followed by its outcome. -/
theorem exec_outcome {i : Instr} (hi : (encode i).fmt = .frame) (s : State) :
    exec i s = whenFrame (outcomeTest i s) (outcomeFired i) s := by
  cases i
  case pose | poseBadlen | unknown => rfl
  all_goals cases hi

/-- The test of a FRAME operation succeeds exactly where `{ID, LEN}` selects the operation (R88). -/
theorem outcomeTest_iff {i : Instr} (hi : (encode i).fmt = .frame) (s : State) :
    outcomeTest i s = true ↔ decode (frameWord s) = .instr i := by
  have hu (id : Byte) : (lookup hardware id).isNone = true ↔ id ≠ 0x01#8 := by
    rw [Option.isNone_iff_eq_none, lookup_hardware_eq_none_iff]; rfl
  rw [decode_frameWord]
  cases i
  case pose | poseBadlen | unknown =>
    simp only [outcomeTest, Bool.and_eq_true, beq_iff_eq, bne_iff_ne, hu, Decoded.instr.injEq, poseId]
    split_ifs <;> grind
  all_goals cases hi

/-- A FRAME operation is refused, or it is the one selected and its payload is in `PBUF` and verifies. -/
theorem exec_outcome_refused_or {i : Instr} (hi : (encode i).fmt = .frame) (s : State) :
    exec i s = .refused .notSelected ∨ decode (frameWord s) = .instr i ∧
      ∃ p, Memory.readBytes s.pbuf 0 s.msgLen.toNat = some p ∧ verify s.msgId s.msgLen p = true := by
  rw [exec_outcome hi, ← outcomeTest_iff hi, ← frameReady_iff]
  exact or_iff_not_imp_right.mpr whenFrame_refused

/-- Settles O48: whatever of the precondition fails, the test of an outcome by itself fails. -/
theorem anOutcomeThatDoesNotApplyIsRefused : Obligations.AnOutcomeThatDoesNotApplyIsRefused := by
  intro i s hi _ h
  rcases exec_outcome_refused_or hi s with hx | ⟨hd, p, hr, hv⟩
  · exact hx
  · rcases h with h | h
    · exact absurd hd h
    · simp [h p hr] at hv

/-! ## The outcome that is selected is the one GETPAY finds -/

/-- The lookup and the length test of GETPAY give what the selected operation yields (R88, R137). -/
theorem outcomeFired_eq_frameOutcome {i : Instr} {s : State} (hd : decode (frameWord s) = .instr i)
    (h2 : 2 ≤ s.msgLen.toNat) : outcomeFired i s = frameOutcome hardware s := by
  rw [decode_frameWord, Decoded.instr.injEq] at hd
  subst hd
  by_cases hid : s.msgId = 0x01#8
  · have hk : lookup hardware s.msgId = some poseEntry := lookup_hardware_of_eq hid
    have hl : s.msgLen.toNat - cksumLen = poseEntry.contentLen ↔ s.msgLen = 0x0E#8 := by
      rw [← BitVec.toNat_inj]
      simp only [cksumLen, poseEntry, poseContentLen, BitVec.toNat_ofNat]
      omega
    rw [frameOutcome, hk, if_pos hid]
    simp only [hl]
    split_ifs <;> rfl
  · have hk : lookup hardware s.msgId = none := (lookup_hardware_eq_none_iff _).mpr hid
    rw [frameOutcome, hk, if_neg hid]
    rfl

section
variable {s : State} {p : List Byte} (hr : Memory.readBytes s.pbuf 0 s.msgLen.toNat = some p)
  (hv : verify s.msgId s.msgLen p = true)
include hr hv

/-- Once the checksum has passed, the lookup and the length test give the verdict (R187). -/
theorem frameOutcome_eq_verdict (cfg : Config) :
    frameOutcome cfg s = .next (s, verdict cfg s.msgId s.msgLen p) := by
  have hp : p.length = s.msgLen.toNat := Memory.readBytes_length hr
  have h2 := two_le_length_of_verify hv
  have hl : 0 + s.msgLen.toNat ≤ pbufSize := by
    have : s.msgLen.toNat < 256 := s.msgLen.isLt
    simp only [pbufSize]; omega
  have h := judge_of_readBytes cfg hp hr
  rw [judge, if_neg (Nat.not_lt.mpr (hp ▸ h2)), readPbuf_ok hr hl] at h
  simpa only [hv, if_true] using h

/-- The selected outcome by itself hands over the verdict and changes nothing else. -/
theorem exec_outcome_eq_deliver_verdict {i : Instr} (hd : decode (frameWord s) = .instr i) :
    exec i s = deliver (.next (s, verdict hardware s.msgId s.msgLen p)) := by
  have hp : p.length = s.msgLen.toNat := Memory.readBytes_length hr
  have hi : (encode i).fmt = .frame := by
    rw [decode_frameWord, Decoded.instr.injEq] at hd
    rw [← hd]
    split_ifs <;> rfl
  rw [exec_outcome hi, whenFrame_of_ready ((outcomeTest_iff hi s).mpr hd) ((frameReady_iff s).mpr ⟨p, hr, hv⟩),
    outcomeFired_eq_frameOutcome hd (hp ▸ two_le_length_of_verify hv), frameOutcome_eq_verdict hr hv]

/-- What the four checks yield is what the selected outcome by itself hands over. -/
theorem exec_outcome_of_verdict {i : Instr} {r : PollResult} (hd : decode (frameWord s) = .instr i)
    (h : verdict hardware s.msgId s.msgLen p = some r) : exec i s = .next (hand r s) := by
  rw [exec_outcome_eq_deliver_verdict hr hv hd, h, deliver]

end

/-- The payload that GETPAY stored, in the state it leaves. -/
theorem afterPayload_readBytes_all {s : State} {p : List Byte} (rest : List Byte) (hp : p.length = s.msgLen.toNat) :
    Memory.readBytes (s.afterPayload p rest).pbuf 0 (s.afterPayload p rest).msgLen.toNat = some p := by
  have h := afterPayload_readBytes s p rest p.length (Nat.le_refl _)
  rw [List.take_length, hp] at h
  exact h

/-- Settles O26: both sides hand over the verdict on the state that GETPAY leaves. -/
theorem getpayPerformsTheSelectedOutcome : Obligations.GetpayPerformsTheSelectedOutcome := by
  intro s p rest i hst hn hq hp hv hd
  have hd' : decode (frameWord (s.afterPayload p rest)) = .instr i := hd
  rw [exec_outcome_eq_deliver_verdict (afterPayload_readBytes_all rest hp) hv hd', exec_eq_deliver_fireStep rfl,
    fireStep, fireGetpay_next hardware hst hn hq hp]
  rfl

/-- Under any registry the generated row of `{ID, LEN}` does what the lookup and the length test of GETPAY do. -/
theorem fireFrame_decodeFrame {cfg : Config} (hr : cfg.RegistryOk) {s : State} (h2 : 2 ≤ s.msgLen.toNat) :
    fireFrame cfg (decodeFrame cfg (frameWord s)) s = frameOutcome cfg s := by
  unfold frameWord frameOutcome
  cases hk : lookup cfg s.msgId with
  | none =>
    have hid : ∀ e ∈ cfg.registry, e.id ≠ s.msgId := by simpa [lookup] using hk
    rw [decodeFrame_unknown _ _ _ hid]
    rfl
  | some e =>
    obtain ⟨he, hid⟩ := mem_of_lookup hk
    have hl : s.msgLen.toNat - cksumLen = e.contentLen ↔ s.msgLen = BitVec.ofNat 8 (e.contentLen + 2) := by
      rw [← BitVec.toNat_inj, toNat_ofNat_contentLen hr he, cksumLen]
      omega
    simp only [hl]
    split_ifs with h
    · rw [← hid, decodeFrame_message _ _ he h, fireFrame, lookup_of_mem hr he]
    · rw [← hid, decodeFrame_badLen _ _ hr he h, fireFrame]

/-- Settles O56: the row's outcome is the verdict on the state that GETPAY leaves. -/
theorem getpayPerformsTheGeneratedRow : Obligations.GetpayPerformsTheGeneratedRow := by
  intro cfg s p rest hr hst hn hq hp hv
  have h2 : 2 ≤ (s.afterPayload p rest).msgLen.toNat := (two_le_length_of_verify hv).trans_eq hp
  have hd : frameWord s = frameWord (s.afterPayload p rest) := rfl
  rw [fireGetpay_next cfg hst hn hq hp, hd, fireFrame_decodeFrame hr h2,
    frameOutcome_eq_verdict (afterPayload_readBytes_all rest hp) hv]
  rfl

/-! ## The outcomes by themselves -/

/-- Settles O23, by the message that the Pose entry gives. -/
theorem poseHandsOverThePose : Obligations.PoseHandsOverThePose := by
  intro s t0 t1 t2 t3 x0 x1 x2 x3 y0 y1 y2 y3 lo hi hid hlen hr hv
  have hd : decode (frameWord s) = .instr .pose := by rw [decode_frameWord, if_pos hid, if_pos hlen]
  have hc := applyEntry_poseEntry t0 t1 t2 t3 x0 x1 x2 x3 y0 y1 y2 y3
  simp only [unle32_eq_ofNat] at hc
  rw [← hlen, ← hid] at hv
  rw [← hid]
  have hverdict := verdict_of_applyEntry hv (lookup_hardware_of_eq hid) hc
  exact ⟨hd, exec_outcome_of_verdict (by rwa [hlen]) hv hd hverdict⟩

/-- Settles O24, by check 4. -/
theorem poseBadlenHandsOverContentLen : Obligations.PoseBadlenHandsOverContentLen := by
  intro s p hid hl hr hv
  have hd : decode (frameWord s) = .instr (.poseBadlen s.msgLen) := by rw [decode_frameWord, if_pos hid, if_neg hl]
  have hverdict := verdict_pose_of_len_ne hid (Memory.readBytes_length hr) hv hl
  exact ⟨hd, exec_outcome_of_verdict hr hv hd hverdict⟩

/-- Settles O25, by check 3. -/
theorem unknownHandsOverTheId : Obligations.UnknownHandsOverTheId := by
  intro s p hid hr hv
  have hd : decode (frameWord s) = .instr (.unknown s.msgId s.msgLen) := by rw [decode_frameWord, if_neg hid]
  have hverdict := verdict_of_lookup_none hv ((lookup_hardware_eq_none_iff _).mpr hid) rfl
  exact ⟨hd, exec_outcome_of_verdict hr hv hd hverdict⟩

end Sys2Proof.Machine
end

section
/-! SUPPORT. What an assembler step and a POLL can do from any state, and the POLL's one result (41_frame_assembler.md
R130, R138, R139, R144). -/

namespace Sys2Proof.Machine

/-! ## An assembler step, performed in any state -/

theorem byteStep_next_or_refused (want : AsmState) (ok : Byte → Bool) (f : Byte → State → State) (s : State) :
    (∃ u o, byteStep want (fun b t => whenByte (ok b) (f b t)) s = .next (u, o)) ∨
      byteStep want (fun b t => whenByte (ok b) (f b t)) s = .refused .notSelected := by
  unfold byteStep
  split_ifs
  · exact .inr rfl
  · cases s.rxq with
    | nil => exact .inl ⟨_, _, rfl⟩
    | cons b rest =>
      simp only [whenByte]
      split_ifs
      · exact .inl ⟨_, _, rfl⟩
      · exact .inr rfl

theorem fireGetpay_next_or_refused (cfg : Config) (s : State) :
    (∃ u o, fireGetpay cfg s = .next (u, o)) ∨ fireGetpay cfg s = .refused .notSelected := by
  by_cases hc : s.st ≠ .haveMsgLen ∨ s.need ≠ s.msgLen
  · exact .inr (if_pos hc)
  · simp only [not_or, ne_eq, not_not] at hc
    obtain ⟨hst, hn⟩ := hc
    by_cases he : enabled s = true
    · obtain ⟨p, rest, hq, hp⟩ := payload_of_enabled hn he
      exact .inl ⟨_, _, fireGetpay_next cfg hst hn hq hp⟩
    · rw [enabled_iff, hn, Nat.not_le] at he
      exact .inl ⟨_, _, fireGetpay_notEnabled cfg hst hn he⟩

/-- A step never faults: it answers, or it is refused as not selected. -/
theorem fireStep_next_or_refused (cfg : Config) (i : Instr) (s : State) :
    (∃ u o, fireStep cfg i s = .next (u, o)) ∨ fireStep cfg i s = .refused .notSelected := by
  cases i <;> simp only [fireStep]
  case idleSync | idleSkip | sync1Sync | sync1Miss | getid | getlen => exact byteStep_next_or_refused _ _ _ s
  case getpay => exact fireGetpay_next_or_refused cfg s
  all_goals simp

/-- A byte step that answers is in its state with `NEED` 1, and if it is not enabled it does nothing (R130). -/
theorem byteStep_next_row {want : AsmState} {k : Byte → State → Fired} {s u : State} {o : Option PollResult}
    (h : byteStep want k s = .next (u, o)) :
    s.st = want ∧ s.need = 1#8 ∧ (enabled s = false → u = s ∧ o = none) := by
  obtain ⟨hst, hn, ⟨-, hu, ho⟩ | ⟨b, rest, hq, -⟩⟩ := byteStep_cases h
  · exact ⟨hst, hn, fun _ => ⟨hu, ho⟩⟩
  · have he : enabled s = true := (enabled_iff s).mpr (by simp [hn, hq])
    exact ⟨hst, hn, fun h => by simp [he] at h⟩

/-- A step that answers is in a state of its row with the `NEED` of R22, and if it is not enabled it does nothing
(R130, R138). -/
theorem fireStep_next_row {cfg : Config} {i : Instr} {s u : State} {o : Option PollResult}
    (h : fireStep cfg i s = .next (u, o)) :
    needOk s = true ∧ (i.wellFormed = true → ∃ b, i = selectedStep s.st b) ∧
      (enabled s = false → u = s ∧ o = none) := by
  rw [needOk_iff]
  cases i <;> simp only [fireStep] at h
  case idleSync =>
    obtain ⟨hst, hn, hu⟩ := byteStep_next_row h
    rw [hst]
    exact ⟨hn, fun _ => ⟨syncByte, rfl⟩, hu⟩
  case idleSkip b =>
    obtain ⟨hst, hn, hu⟩ := byteStep_next_row h
    rw [hst]
    exact ⟨hn, fun hw => ⟨b, (if_neg (bne_iff_ne.mp hw)).symm⟩, hu⟩
  case sync1Sync =>
    obtain ⟨hst, hn, hu⟩ := byteStep_next_row h
    rw [hst]
    exact ⟨hn, fun _ => ⟨syncByte, rfl⟩, hu⟩
  case sync1Miss b =>
    obtain ⟨hst, hn, hu⟩ := byteStep_next_row h
    rw [hst]
    exact ⟨hn, fun hw => ⟨b, (if_neg (bne_iff_ne.mp hw)).symm⟩, hu⟩
  case getid b | getlen b =>
    obtain ⟨hst, hn, hu⟩ := byteStep_next_row h
    rw [hst]
    exact ⟨hn, fun _ => ⟨b, rfl⟩, hu⟩
  case getpay =>
    obtain ⟨hst, hn, ⟨-, hu, ho⟩ | ⟨p, rest, hq, hp, -⟩⟩ := fireGetpay_cases cfg h
    · rw [hst]
      exact ⟨hn, fun _ => ⟨0#8, rfl⟩, fun _ => ⟨hu, ho⟩⟩
    · have he : enabled s = true := (enabled_iff s).mpr (by simp [hn, hq, hp])
      rw [hst]
      exact ⟨hn, fun _ => ⟨0#8, rfl⟩, fun h => by simp [he] at h⟩
  all_goals cases h

theorem fireSelected_eq_fireStep (cfg : Config) (s : State) :
    fireSelected cfg s = fireStep cfg (selectedStep s.st (headByte s)) s := by
  rw [fireSelected, decode_stepWord_iff.mpr rfl]

/-- Settles O47: a step that answers is in a state of its row, and with enough bytes it is the one selected. -/
theorem aStepThatIsNotSelectedIsRefused : Obligations.AStepThatIsNotSelectedIsRefused := by
  intro i s hi hw h
  rw [exec_eq_deliver_fireStep hi]
  rcases fireStep_next_or_refused hardware i s with ⟨u, o, hx⟩ | hx
  · obtain ⟨hn, hrow, -⟩ := fireStep_next_row hx
    obtain ⟨b, hb⟩ := hrow hw
    rcases h with h | ⟨he, hd⟩ | h
    · simp [hn] at h
    · exact absurd (decode_stepWord_iff.mpr (eq_selectedStep_of_fireStep hardware ((enabled_iff s).mpr he) hx)) hd
    · exact absurd (decode_stepSel_iff.mpr hb) (h b)
  · rw [hx]
    rfl

/-- What an assembler step by itself can do: nothing where it is not enabled, else what a POLL would do there. -/
theorem exec_step_cases {i : Instr} {s t : State} (hi : (encode i).fmt = .step) (h : exec i s = .next t) :
    needOk s = true ∧ (enabled s = false ∧ t = s ∨ enabled s = true ∧ decode (stepWord s) = .instr i ∧
      ∃ u o, fireSelected hardware s = .next (u, o) ∧ t = o.elim u fun r => hand r u) := by
  rw [exec_eq_deliver_fireStep hi] at h
  obtain ⟨u, o, hx, ht⟩ := deliver_next_cases h
  obtain ⟨hn, -, hstay⟩ := fireStep_next_row hx
  refine ⟨hn, ?_⟩
  cases he : enabled s with
  | false =>
    obtain ⟨rfl, rfl⟩ := hstay he
    exact .inl ⟨rfl, ht⟩
  | true =>
    have hsel := eq_selectedStep_of_fireStep hardware he hx
    exact .inr ⟨rfl, decode_stepWord_iff.mpr hsel, u, o, by rw [fireSelected_eq_fireStep, ← hsel, hx], ht⟩

/-! ## A POLL, in any state -/

theorem exec_poll (s : State) : exec .poll s = pollWith hardware s := rfl

/-- In a state whose `NEED` breaks R22 no step is selected (R138, U3). -/
theorem fireSelected_of_not_needOk (cfg : Config) {s : State} (hn : needOk s = false) :
    fireSelected cfg s = .refused .notSelected := by
  rw [fireSelected_eq_fireStep]
  refine (fireStep_next_or_refused cfg _ s).resolve_left fun ⟨u, o, h⟩ => ?_
  simp [(fireStep_next_row h).1] at hn

/-- A POLL in a state whose `NEED` breaks R22, at its first sampling. -/
theorem pollWith_of_not_needOk (cfg : Config) {s : State} (hn : needOk s = false) :
    pollWith cfg s =
      if enabled (arrive s) then .refused .notSelected else .next (hand (nothing .notEnough) (arrive s)) := by
  have hx : fireSelected cfg (arrive s) = .refused .notSelected :=
    fireSelected_of_not_needOk cfg (by rwa [needOk_arrive])
  rw [pollWith, pollLoop]
  simp only [hx]

/-- Settles O49: the first step of the loop is refused. -/
theorem pollInAnImpossibleStateIsRefused : Obligations.PollInAnImpossibleStateIsRefused := by
  intro s hn hq
  rw [exec_poll, pollWith_of_not_needOk hardware hn, if_pos ((enabled_iff _).mpr hq)]

/-! ## The one result of a POLL (R144) -/

/-- No check of a frame yields NOT_ENOUGH (R180, R187). -/
theorem verdict_ne_notEnough {cfg : Config} {id len : Byte} {p : List Byte} {r : PollResult}
    (h : verdict cfg id len p = some r) : r ≠ nothing .notEnough := by
  rintro rfl
  unfold verdict at h
  split at h
  · simp [nothing] at h
  split at h
  · simp [nothing] at h
  split at h
  · split at h <;> simp [nothing, unknownKind] at h
  · split at h <;> simp [nothing] at h

/-- A step of a POLL that yields, yields the verdict of a frame, not NOT_ENOUGH, and leaves `Idle` with `NEED` 1. -/
theorem fireSelected_yield {cfg : Config} {s u : State} {r : PollResult} (hn : needOk s = true)
    (he : enabled s = true) (h : fireSelected cfg s = .next (u, some r)) :
    r ≠ nothing .notEnough ∧ u.st = .idle ∧ u.need = 1#8 := by
  rcases fireSelected_cases cfg hn he with ⟨b, rest, -, -, hx⟩ | ⟨b, rest, -, -, hx⟩ | ⟨b, rest, -, -, hx⟩ |
    ⟨b, rest, -, -, hx⟩ | ⟨p, rest, -, -, -, hx⟩ <;> rw [h] at hx
  case inr.inr.inr.inr =>
    simp only [Host.Outcome.next.injEq, Prod.mk.injEq] at hx
    obtain ⟨rfl, hr⟩ := hx
    exact ⟨verdict_ne_notEnough hr.symm, rfl, rfl⟩
  all_goals simp at hx

/-- What every enabled step has in common, for a step that is given with its answer. -/
theorem fireSelected_next_frame {cfg : Config} {s u : State} {o : Option PollResult} (hn : needOk s = true)
    (he : enabled s = true) (h : fireSelected cfg s = .next (u, o)) :
    needOk u = true ∧ (∃ k ≤ s.stream.length, u.stream = s.stream.drop k) ∧ u.arrivals = s.arrivals ∧
      u.results = s.results ∧ u.sums = s.sums ∧ u.inputs = s.inputs ∧ (Memory.wf s.pbuf → Memory.wf u.pbuf) := by
  obtain ⟨u', o', k, h', hu, hq, hk, -, -, ha, hrest⟩ := fireSelected_frame cfg hn he
  rw [h] at h'
  simp only [Host.Outcome.next.injEq, Prod.mk.injEq] at h'
  obtain ⟨rfl, -⟩ := h'
  refine ⟨hu, ⟨k, ?_, ?_⟩, ha, hrest⟩
  · simp only [State.stream, List.length_append]
    omega
  · rw [State.stream, State.stream, hq, ha, List.drop_append_of_le_length hk]

/-- What a POLL from `s` answers, under any registry: a next state with one result more. -/
def PollAnswer (s : State) (x : Host.Outcome State Fault Refusal) : Prop :=
  ∃ t r k, x = .next t ∧ t.results = s.results ++ [r] ∧ k ≤ s.stream.length ∧ t.stream = s.stream.drop k ∧
    needOk t = true ∧ t.sums = s.sums ∧ t.inputs = s.inputs ∧ (Memory.wf s.pbuf → Memory.wf t.pbuf) ∧
    (s.arrivals = [] → t.arrivals = []) ∧
    (r = nothing .notEnough → t.rxq.length < t.need.toNat) ∧
    (r ≠ nothing .notEnough → t.st = .idle ∧ t.need = 1#8)

theorem pollWith_answer (cfg : Config) (s : State) (hn : needOk s = true) : PollAnswer s (pollWith cfg s) := by
  refine pollWith_induction cfg PollAnswer ?short ?yield ?step s hn
  case short =>
    intro s hn he
    refine ⟨_, nothing .notEnough, 0, rfl, by simp, Nat.zero_le _, ?_, (needOk_arrive s).trans hn, by simp, by simp,
      by simp,
      fun ha => by simp [ha], fun _ => ?_, fun h => absurd rfl h⟩
    · exact (arrive_stream s).trans List.drop_zero.symm
    · rwa [← Bool.not_eq_true, enabled_iff, Nat.not_le] at he
  case yield =>
    intro s u r hn he h
    have hn' : needOk (arrive s) = true := (needOk_arrive s).trans hn
    obtain ⟨hr, hst, hneed⟩ := fireSelected_yield hn' he h
    obtain ⟨hu, ⟨k, hk, hstream⟩, harr, hres, hsums, hin, hwf⟩ := fireSelected_next_frame hn' he h
    rw [arrive_stream] at hk hstream
    exact ⟨_, r, k, rfl, by simp [hres], hk, hstream, hu, by simp [hsums], by simp [hin], by simpa using hwf,
      fun ha => by simp [harr, ha], fun h => absurd h hr, fun _ => ⟨hst, hneed⟩⟩
  case step =>
    intro s u x hn he h _ hx
    have hn' : needOk (arrive s) = true := (needOk_arrive s).trans hn
    obtain ⟨-, ⟨k, hk, hstream⟩, harr, hres, hsums, hin, hwf⟩ := fireSelected_next_frame hn' he h
    rw [arrive_stream] at hk hstream
    obtain ⟨t, r, j, rfl, hr, hj, ht, hnt, hs, hi, hw, ha, hends⟩ := hx
    rw [hstream] at hj ht
    rw [List.length_drop] at hj
    exact ⟨t, r, k + j, rfl, by simp [hr, hres], by omega, by rw [ht, List.drop_drop], hnt, by simp [hs, hsums],
      by simp [hi, hin], fun hm => hw (hwf (by simpa using hm)), fun h => ha (by simp [harr, h]),
      hends⟩

/-- Settles O29, by the induction on POLLs. -/
theorem pollReturnsExactlyOneResult : Obligations.PollReturnsExactlyOneResult := by
  intro s hn
  obtain ⟨t, r, k, hx, hr, hk, hstream, hnt, hsums, hin, -, -, hdry, hend⟩ := pollWith_answer hardware s hn
  exact ⟨t, r, k, hx, hr, hk, hstream, hnt, hsums, hin, hdry, hend⟩

end Sys2Proof.Machine
end

section
/-! SUPPORT. RESET, the steps of the machine, and what every operation keeps (10_state.md sections 1 and 2,
70_reset_and_hazards.md section 1). -/

namespace Sys2Proof.Machine

/-! ## What an operation of each format can do -/

/-- The checksum unit's operations always answer, and write its accumulators and its output alone (R110 to R112). -/
theorem exec_ckop_next {i : Instr} (hi : (encode i).fmt = .ckop) (s : State) :
    ∃ a b sums, exec i s = .next { s with a := a, b := b, sums := sums } := by
  cases i
  case ckClr => exact ⟨_, _, _, exec_ckClr s⟩
  case ckAbs d => exact ⟨_, _, _, exec_ckAbs d s⟩
  case ckRes => exact ⟨_, _, _, exec_ckRes s⟩
  all_goals cases hi

theorem exec_step_next_or_refused {i : Instr} (hi : (encode i).fmt = .step) (s : State) :
    (∃ t, exec i s = .next t) ∨ exec i s = .refused .notSelected := by
  rw [exec_eq_deliver_fireStep hi]
  rcases fireStep_next_or_refused hardware i s with ⟨u, o, h⟩ | h <;> rw [h]
  · obtain ⟨t, ht, -⟩ := deliver_next u o
    exact .inl ⟨t, ht⟩
  · exact .inr rfl

/-- A message-level outcome hands over one result and changes nothing else, or is refused (R161, R162, R164). -/
theorem exec_outcome_hand_or_refused {i : Instr} (hi : (encode i).fmt = .frame) (s : State) :
    (∃ r, exec i s = .next (hand r s)) ∨ exec i s = .refused .notSelected := by
  rcases exec_outcome_refused_or hi s with h | ⟨hd, p, hr, hv⟩
  · exact .inr h
  · obtain ⟨r, hverdict⟩ := Option.isSome_iff_exists.mp (verdict_hardware_isSome s.msgId s.msgLen p)
    exact .inl ⟨r, exec_outcome_of_verdict hr hv hd hverdict⟩

theorem exec_outcome_hand {i : Instr} {s t : State} (hi : (encode i).fmt = .frame) (h : exec i s = .next t) :
    ∃ r, t = hand r s := by
  rcases exec_outcome_hand_or_refused hi s with ⟨r, hx⟩ | hx
  · exact ⟨r, Host.Outcome.next.inj (h.symm.trans hx)⟩
  · cases hx.symm.trans h

/-- The host's two operations (R91). -/
theorem eq_poll_or_reset {i : Instr} (hi : (encode i).fmt = .call) : i = .poll ∨ i = .reset := by
  cases i
  case poll => exact .inl rfl
  case reset => exact .inr rfl
  all_goals cases hi

theorem exec_reset (s : State) : exec .reset s = .next (endFrame (scrambleAll s)) := rfl

/-- What a POLL that answers has in common, from any state. -/
theorem exec_poll_frame {s t : State} (h : exec .poll s = .next t) :
    (∃ k ≤ s.stream.length, t.stream = s.stream.drop k) ∧ t.sums = s.sums ∧ t.inputs = s.inputs := by
  rw [exec_poll] at h
  cases hn : needOk s with
  | true =>
    obtain ⟨t', -, k, h', -, hk, hstream, -, hsums, hin, -⟩ := pollWith_answer hardware s hn
    obtain rfl : t' = t := by simpa [h'] using h
    exact ⟨⟨k, hk, hstream⟩, hsums, hin⟩
  | false =>
    rw [pollWith_of_not_needOk hardware hn] at h
    split_ifs at h
    obtain rfl := (Host.Outcome.next.inj h).symm
    exact ⟨⟨0, Nat.zero_le _, (arrive_stream s).trans List.drop_zero.symm⟩, by simp, by simp⟩

theorem exec_poll_next_or_refused (s : State) :
    (∃ t, exec .poll s = .next t) ∨ exec .poll s = .refused .notSelected := by
  rw [exec_poll]
  cases hn : needOk s with
  | true =>
    obtain ⟨t, -, -, h, -⟩ := pollWith_answer hardware s hn
    exact .inl ⟨t, h⟩
  | false =>
    rw [pollWith_of_not_needOk hardware hn]
    split_ifs
    · exact .inr rfl
    · exact .inl ⟨_, rfl⟩

/-- No operation ends in a fault, from any state (R57). -/
theorem exec_next_or_refused (i : Instr) (s : State) :
    (∃ t, exec i s = .next t) ∨ exec i s = .refused .notSelected := by
  cases hi : (encode i).fmt with
  | ckop =>
    obtain ⟨a, b, sums, h⟩ := exec_ckop_next hi s
    exact .inl ⟨_, h⟩
  | step => exact exec_step_next_or_refused hi s
  | frame => exact (exec_outcome_hand_or_refused hi s).imp_left fun ⟨r, h⟩ => ⟨_, h⟩
  | call =>
    rcases eq_poll_or_reset hi with rfl | rfl
    · exact exec_poll_next_or_refused s
    · exact .inl ⟨_, exec_reset s⟩

/-! ## RESET -/

/-- Settles O39, by RESET's decode row and the two updates it makes. -/
theorem resetGivesIdleAndNeedOneAndKeepsTheQueue : Obligations.ResetGivesIdleAndNeedOneAndKeepsTheQueue :=
  ⟨decode_call 2#2, fun s => ⟨_, exec_reset s, rfl, rfl, rfl, rfl, rfl, rfl, rfl⟩⟩

/-- Settles O40: `NEED` is 1 in `Idle`, and `PBUF` lists no cell. -/
theorem resetStateIsIdleAndMeetsTheInvariant : Obligations.ResetStateIsIdleAndMeetsTheInvariant :=
  ⟨rfl, rfl, rfl, List.Pairwise.nil, fun _ hc => absurd hc List.not_mem_nil⟩

/-! ## One step of the machine -/

/-- Everything a step can be: a rest, a feed, an operation, a refusal of a word that names none. -/
theorem step_cases (s : State) :
    step s = .next (dropInput s) ∨ (∃ bs, step s = .next (append bs (dropInput s))) ∨
      (∃ i, step s = exec i (dropInput s)) ∨ ∃ r, step s = .refused r := by
  unfold step
  cases fetch s with
  | rest => exact .inl rfl
  | feed bs => exact .inr (.inl ⟨bs, rfl⟩)
  | word w =>
    cases hd : decode w with
    | instr i => exact .inr (.inr (.inl ⟨i, by simp only [hd]⟩))
    | reject r => exact .inr (.inr (.inr ⟨refusalOf r, by simp only [hd]⟩))

/-- A step that finds an input which asks for nothing. -/
theorem step_rest {s : State} {inp : Input} {rest : List Input} (h : s.inputs = inp :: rest)
    (hr : fetchInput inp s = .rest) : step s = .next { s with inputs := rest } := by
  simp [step, fetch, h, hr, dropInput]

/-- A step that finds a word which names no operation. -/
theorem step_reject {s : State} {inp : Input} {rest : List Input} {w : OpWord} {r : Reject}
    (h : s.inputs = inp :: rest) (hw : fetchInput inp s = .word w) (hd : decode w = .reject r) :
    step s = .refused (refusalOf r) := by
  simp [step, fetch, h, hw, hd]

theorem fetchInput_call {csel : BitVec 2} (h : csel ≠ 0#2) (s : State) :
    fetchInput (.call csel) s = .word ⟨.call, csel.setWidth 16, 0#8⟩ := if_neg h

theorem fetchInput_assemble_enabled {s : State} (he : enabled s = true) :
    fetchInput .assemble s = .word (stepWord s) := if_pos he

theorem fetchInput_assemble_rest {s : State} (he : ¬ enabled s = true) : fetchInput .assemble s = .rest := if_neg he

/-- Settles O44: each of the four inputs forms its word, and a step performs what its word decodes to. -/
theorem aStepRunsTheDecodedOperation : Obligations.AStepRunsTheDecodedOperation := by
  intro s rest i
  refine ⟨fun csel hin hd => ?_, fun op data hin hd => step_word hin rfl hd, fun hin hq hd => ?_,
    fun hin hd => step_word hin rfl hd⟩
  · have hc : csel ≠ 0#2 := by
      rintro rfl
      rw [decode_call 0#2, if_pos rfl] at hd
      cases hd
    exact step_word hin (fetchInput_call hc s) hd
  · exact step_word hin (fetchInput_assemble_enabled ((enabled_iff s).mpr hq)) hd

/-- Settles O45: no input, a feed, and the two inputs that ask for nothing. -/
theorem theOtherStepsFeedOrRest : Obligations.TheOtherStepsFeedOrRest := by
  intro s rest
  refine ⟨step_nil, fun bs hin => step_feed hin, fun hin => step_rest hin rfl, fun hin hq => step_rest hin ?_⟩
  exact fetchInput_assemble_rest (by rwa [enabled_iff, Nat.not_le])

/-- Settles O46: the word `0b11` decodes to RESET for CALL and is reserved for CKOP. -/
theorem resetWinsAndTheReservedCkOpIsRefused : Obligations.ResetWinsAndTheReservedCkOpIsRefused := by
  intro s rest
  constructor
  · intro hin
    exact step_word hin (fetchInput_call (by decide) s) (decode_call 3#2)
  · intro data hin
    exact step_reject hin rfl (decode_ckop data 3#2)

/-- Settles O50: a step rests, feeds, is refused, or performs an operation, and no operation faults. -/
theorem noStepEverFaults : Obligations.NoStepEverFaults := by
  intro s f h
  rcases step_cases s with hs | ⟨bs, hs⟩ | ⟨i, hs⟩ | ⟨r, hs⟩ <;> rw [hs] at h
  case inr.inr.inl =>
    rcases exec_next_or_refused i (dropInput s) with ⟨t, hx⟩ | hx <;> rw [hx] at h <;> cases h
  all_goals cases h

/-! ## The invariant -/

/-- Every operation that answers keeps the invariant. -/
theorem exec_keeps_inv {i : Instr} {s t : State} (hs : s.Inv) (h : exec i s = .next t) : t.Inv := by
  obtain ⟨hn, hw⟩ := hs
  cases hi : (encode i).fmt with
  | ckop =>
    obtain ⟨a, b, sums, hx⟩ := exec_ckop_next hi s
    obtain rfl := Host.Outcome.next.inj (hx.symm.trans h)
    exact ⟨hn, hw⟩
  | step =>
    obtain ⟨-, ⟨-, rfl⟩ | ⟨he, -, u, o, hx, rfl⟩⟩ := exec_step_cases hi h
    · exact ⟨hn, hw⟩
    · obtain ⟨hu, -, -, -, -, -, hwf⟩ := fireSelected_next_frame hn he hx
      cases o with
      | none => exact ⟨hu, hwf hw⟩
      | some r => exact ⟨hu, hwf hw⟩
  | frame =>
    obtain ⟨r, rfl⟩ := exec_outcome_hand hi h
    exact ⟨hn, hw⟩
  | call =>
    rcases eq_poll_or_reset hi with rfl | rfl
    · obtain ⟨t', -, -, hx, -, -, -, ht, -, -, hwf, -⟩ := pollWith_answer hardware s hn
      obtain rfl := Host.Outcome.next.inj (hx.symm.trans h)
      exact ⟨ht, hwf hw⟩
    · obtain rfl := Host.Outcome.next.inj ((exec_reset s).symm.trans h)
      exact ⟨rfl, List.Pairwise.nil, fun _ hc => absurd hc List.not_mem_nil⟩

/-- Settles O41: rests and feeds touch neither `NEED` nor `PBUF`, and every operation keeps the invariant. -/
theorem everyStepKeepsTheInvariant : Obligations.EveryStepKeepsTheInvariant := by
  intro s t hs h
  rcases step_cases s with hx | ⟨bs, hx⟩ | ⟨i, hx⟩ | ⟨r, hx⟩ <;> rw [hx] at h
  · obtain rfl := Host.Outcome.next.inj h
    exact hs
  · obtain rfl := Host.Outcome.next.inj h
    exact hs
  · exact exec_keeps_inv (s := dropInput s) hs h
  · cases h

/-- From a state whose `NEED` obeys R22 the operation an enabled state selects answers, and touches no input. -/
theorem exec_selected_next {s : State} (hn : needOk s = true) (he : enabled s = true) :
    ∃ i t, decode (stepWord s) = .instr i ∧ exec i s = .next t ∧ t.inputs = s.inputs := by
  obtain ⟨u, o, k, hx, -, -, -, -, -, -, -, -, hin, -⟩ := fireSelected_frame hardware hn he
  have hd : decode (stepWord s) = .instr (selectedStep s.st (headByte s)) := decode_stepWord_iff.mpr rfl
  refine ⟨_, o.elim u fun r => hand r u, hd, ?_, ?_⟩
  · rw [exec_eq_deliver_fireSelected hd, hx]
    cases o <;> rfl
  · cases o <;> exact hin

/-- Settles O51: each kind of input is completed, and the invariant is kept as by every step. -/
theorem hostRequestsAlwaysComplete : Obligations.HostRequestsAlwaysComplete := by
  intro s inp rest hs hin hinp
  suffices h : ∃ t, step s = .next t ∧ t.inputs = rest by
    obtain ⟨t, hx, ht⟩ := h
    exact ⟨t, hx, ht, everyStepKeepsTheInvariant s t hs hx⟩
  obtain ⟨hn, -⟩ := hs
  rcases hinp with ⟨bs, rfl⟩ | ⟨csel, rfl⟩ | ⟨op, data, rfl, hop⟩ | rfl
  · exact ⟨_, step_feed hin, rfl⟩
  · by_cases h0 : csel = 0#2
    · exact ⟨_, step_rest hin (if_pos h0), rfl⟩
    have hd := decode_call csel
    rw [if_neg h0] at hd
    by_cases h1 : csel = 1#2
    · rw [if_pos h1] at hd
      obtain ⟨t, -, -, hx, -, -, -, -, -, hti, -⟩ := pollWith_answer hardware { s with inputs := rest } hn
      exact ⟨t, (step_word hin (fetchInput_call h0 s) hd).trans hx, hti⟩
    · rw [if_neg h1] at hd
      exact ⟨_, step_word hin (fetchInput_call h0 s) hd, rfl⟩
  · have hd := decode_ckop data op
    have hops : ∀ op : BitVec 2, op ≠ 3#2 → op = 0#2 ∨ op = 1#2 ∨ op = 2#2 := by decide
    rcases hops op hop with rfl | rfl | rfl <;> exact ⟨_, step_word hin rfl hd, rfl⟩
  · by_cases he : enabled s = true
    · obtain ⟨i, t, hd, hx, hti⟩ := exec_selected_next (s := { s with inputs := rest }) hn he
      exact ⟨t, (step_word hin (fetchInput_assemble_enabled he) hd).trans hx, hti⟩
    · exact ⟨_, step_rest hin (fetchInput_assemble_rest he), rfl⟩

/-! ## Who writes what -/

/-- Settles O42, operation by operation, by what each can do when it answers. -/
theorem onlyTheNamedOperationsWriteEachRegister : Obligations.OnlyTheNamedOperationsWriteEachRegister := by
  intro i s t h
  cases i
  case ckClr | ckAbs | ckRes =>
    obtain rfl := Host.Outcome.next.inj h
    simp
  case idleSync | idleSkip | sync1Sync | sync1Miss | getid | getlen =>
    rw [exec_eq_deliver_fireStep rfl] at h
    simp only [fireStep] at h
    obtain ⟨hst, -, rfl | ⟨b, rest, -, -, rfl⟩⟩ := deliver_byteStep_cases h <;> simp [encode, hst]
  case getpay =>
    obtain ⟨-, -, rfl | ⟨p, rest, -, -, rfl⟩⟩ := execGetpay_cases h
    · simp
    · cases verdict hardware s.msgId s.msgLen p <;> simp [State.afterPayload, encode]
  case pose | poseBadlen | unknown =>
    obtain ⟨r, rfl⟩ := exec_outcome_hand (by rfl) h
    simp
  case poll =>
    obtain ⟨-, hsums, hin⟩ := exec_poll_frame h
    simp [hsums, hin]
  case reset =>
    obtain rfl := Host.Outcome.next.inj h
    simp

/-- Settles O43: a POLL takes bytes from the head of the stream, an enabled step `NEED` bytes from the head of the
queue, and the other operations do not write the queue. -/
theorem theStreamNeverMovesBackwards : Obligations.TheStreamNeverMovesBackwards := by
  intro i s t h
  by_cases hp : i = .poll
  · subst hp
    obtain ⟨hstream, -⟩ := exec_poll_frame h
    exact ⟨hstream, fun hc => absurd rfl hc⟩
  obtain ⟨-, hrxq, -, -, -, -, -, -, -, -, harr⟩ := onlyTheNamedOperationsWriteEachRegister i s t h
  have ha : t.arrivals = s.arrivals := by
    by_contra hc
    exact hp (harr hc)
  have hq : t.rxq = s.rxq.drop (bytesRead i s) := by
    by_cases hi : (encode i).fmt = .step
    · obtain ⟨hn, ⟨he, rfl⟩ | ⟨he, hd, -⟩⟩ := exec_step_cases hi h
      · have hlt : ¬ t.need.toNat ≤ t.rxq.length := by rw [← enabled_iff, he]; simp
        rw [bytesRead, if_neg fun hc => hlt hc.2, List.drop_zero]
      · have hle := (enabled_iff s).mp he
        obtain ⟨t', ht', hq⟩ := (stepTakesExactlyNeedBytesOrDoesNothing s hn).1 hle i hd
        obtain rfl := Host.Outcome.next.inj (ht'.symm.trans h)
        rw [bytesRead, if_pos ⟨hi, hle⟩, hq]
    · rw [bytesRead, if_neg fun hc => hi hc.1, List.drop_zero]
      by_contra hc
      exact (hrxq hc).elim hi hp
  have hle : bytesRead i s ≤ s.rxq.length := by
    unfold bytesRead
    split_ifs with hc
    · exact hc.2
    · exact Nat.zero_le _
  refine ⟨⟨bytesRead i s, ?_, ?_⟩, fun _ => ⟨hq, ha⟩⟩
  · rw [State.stream, List.length_append]
    omega
  · rw [State.stream, State.stream, hq, ha, List.drop_append_of_le_length hle]

end Sys2Proof.Machine
end

section
/-! SUPPORT. The closed form of the checksum, and which changes it detects (40_checksum.md sections 4 and 5, R116,
R118). -/

namespace Sys2Proof.Machine

/-! ## The closed form (R116) -/

/-- The sum of the bytes weighted `n, n-1, …, 1` (40_checksum.md section 4). -/
def weightedSum (l : List Byte) : Nat := (l.zipIdx.map fun bi => (l.length - bi.2) * bi.1.toNat).sum

theorem weightedSum_cons (d : Byte) (l : List Byte) :
    weightedSum (d :: l) = (l.length + 1) * d.toNat + weightedSum l := by
  simp [weightedSum, List.zipIdx_succ (i := 0), Function.comp_def]

/-- `A` after a sequence: the plain sum. -/
theorem foldl_absorb_fst_toNat (l : List Byte) (a b : Byte) :
    (l.foldl absorb (a, b)).1.toNat = (a.toNat + (l.map BitVec.toNat).sum) % 256 := by
  induction l generalizing a b with
  | nil => simp [Nat.mod_eq_of_lt a.isLt]
  | cons d l ih =>
    simp only [List.foldl_cons, absorb, ih, BitVec.toNat_add, List.map_cons, List.sum_cons]
    omega

/-- `B` after a sequence: each byte counts once for every byte from it to the end, the start's `A` once for every
byte. -/
theorem foldl_absorb_snd_toNat (l : List Byte) (a b : Byte) :
    (l.foldl absorb (a, b)).2.toNat = (b.toNat + l.length * a.toNat + weightedSum l) % 256 := by
  induction l generalizing a b with
  | nil => simp [weightedSum, Nat.mod_eq_of_lt b.isLt]
  | cons d l ih =>
    have hmod : l.length * ((a.toNat + d.toNat) % 256) % 256 = l.length * (a.toNat + d.toNat) % 256 :=
      (Nat.mod_modEq _ _).mul_left _
    simp only [List.foldl_cons, absorb, ih, weightedSum_cons, List.length_cons, BitVec.toNat_add, Nat.reducePow]
    rw [Nat.mul_add] at hmod
    rw [Nat.add_mul, Nat.add_mul]
    omega

/-- Settles O5: both accumulators from cleared ones. -/
theorem checksumIsPlainSumAndWeightedSum : Obligations.ChecksumIsPlainSumAndWeightedSum := by
  intro bytes
  have ha := foldl_absorb_fst_toNat bytes 0#8 0#8
  have hb := foldl_absorb_snd_toNat bytes 0#8 0#8
  simp only [BitVec.toNat_ofNat, Nat.zero_mod, Nat.mul_zero, Nat.zero_add] at ha hb
  rw [compute, sumOf_toNat, ha, hb, weightedSum]

/-! ## A change of one byte (R118) -/

/-- VERIFY as a condition on the two accumulators. -/
theorem verify_append_iff (id len : Byte) (c : List Byte) (lo hi : Byte) :
    verify id len (c ++ [lo, hi]) = true ↔
      (id :: len :: c).sum = hi ∧ ((id :: len :: c).foldl absorb (0#8, 0#8)).2 = lo := by
  rw [verify_append, beq_iff_eq, compute, sumOf_eq_unle16, foldl_absorb_fst, BitVec.zero_add]

/-- One byte changed changes the plain sum. -/
theorem sum_set_ne {l : List Byte} {i : Nat} {x : Byte} (hi : i < l.length) (hx : l[i]? ≠ some x) :
    (l.set i x).sum ≠ l.sum := by
  induction l generalizing i with
  | nil => simp at hi
  | cons d l ih =>
    cases i with
    | zero => simpa using Ne.symm hx
    | succ i => simpa using ih (by simpa using hi) (by simpa using hx)

/-- Settles O7: a changed byte of id, length or content changes the plain sum, which the last byte holds; a changed
checksum field no longer holds the accumulators, which have not changed. -/
theorem oneChangedByteIsAlwaysDetected : Obligations.OneChangedByteIsAlwaysDetected := by
  intro id len id' len' p p' hv h
  obtain ⟨c, lo, hi, rfl, -⟩ := payload_split p (two_le_length_of_verify hv)
  rw [verify_append_iff] at hv
  obtain ⟨hsum, hB⟩ := hv
  rw [← Bool.not_eq_true]
  rcases h with ⟨hid, rfl, rfl⟩ | ⟨rfl, hlen, rfl⟩ | ⟨rfl, rfl, i, x, hi', hx, rfl⟩
  · rw [verify_append_iff]
    rintro ⟨h, -⟩
    exact sum_set_ne (l := id :: len' :: c) (i := 0) (by simp) (by simpa using Ne.symm hid) (h.trans hsum.symm)
  · rw [verify_append_iff]
    rintro ⟨h, -⟩
    exact sum_set_ne (l := id' :: len :: c) (i := 1) (by simp) (by simpa using Ne.symm hlen) (h.trans hsum.symm)
  · by_cases hc : i < c.length
    · rw [List.set_append_left _ _ hc, verify_append_iff]
      rintro ⟨h, -⟩
      refine sum_set_ne (l := id' :: len' :: c) (i := i + 2) (by simpa using hc) ?_ (h.trans hsum.symm)
      simpa [List.getElem?_append_left hc] using hx
    · rw [not_lt] at hc
      rw [List.getElem?_append_right hc] at hx
      rw [List.set_append_right _ _ hc]
      have : i - c.length = 0 ∨ i - c.length = 1 := by simp at hi'; omega
      rcases this with h0 | h0 <;> rw [h0] at hx ⊢
      · rw [List.set_cons_zero, verify_append_iff]
        rintro ⟨-, h⟩
        exact hx (congrArg some (hB.symm.trans h))
      · rw [List.set_cons_succ, List.set_cons_zero, verify_append_iff]
        rintro ⟨h, -⟩
        exact hx (congrArg some (hsum.symm.trans h))

/-! ## A change of two bytes that is not detected (R118, R219) -/

/-- `0x80` added to a byte and to the byte two positions later: `A` gets `0x100`, and `B` gets it too, `0x80` after each
of the first two bytes. -/
theorem foldl_absorb_add_0x80 (ab : Byte × Byte) (x m y : Byte) :
    [x + 0x80#8, m, y + 0x80#8].foldl absorb ab = [x, m, y].foldl absorb ab := by
  simp only [List.foldl_cons, List.foldl_nil, absorb, Prod.mk.injEq]
  constructor <;> bv_omega

/-- Settles O8: both fields of the checksum are the accumulators of the whole sequence. -/
theorem twoChangedBytesTwoApartPassUndetected : Obligations.TwoChangedBytesTwoApartPassUndetected := by
  intro id len x y lo hi c₁ c₂ m
  have h (ab : Byte × Byte) : (c₁ ++ [x + 0x80#8, m, y + 0x80#8] ++ c₂).foldl absorb ab =
      (c₁ ++ [x, m, y] ++ c₂).foldl absorb ab := by
    simp only [List.foldl_append, foldl_absorb_add_0x80]
  rw [verify_append, verify_append, compute, compute]
  simp only [List.foldl_cons, h]

end Sys2Proof.Machine
end

section
/-! SUPPORT. Pure noise: the invariant of the hunting core (41_frame_assembler.md section 6, R146). -/

namespace Sys2Proof.Machine

/-! ## Feeds and POLLs -/

@[simp] theorem fedBytes_nil : fedBytes [] = [] := rfl

@[simp] theorem fedBytes_cons (inp : Input) (is : List Input) : fedBytes (inp :: is) = inp.bytes ++ fedBytes is := rfl

/-- The surroundings of R145 and R146 feed or ask for a POLL. -/
theorem feed_or_pollReq {inp : Input} (h : inp.isFeedOrPoll = true) : (∃ bs, inp = .feed bs) ∨ inp = pollReq := by
  cases inp with
  | feed bs => exact .inl ⟨bs, rfl⟩
  | call csel => exact .inr (congrArg Input.call (eq_of_beq h))
  | ckop | assemble | dispatch => cases h

/-! ## Bytes without a sync pair -/

theorem noSyncPair_tail {b : Byte} {l : List Byte} (h : noSyncPair (b :: l) = true) : noSyncPair l = true := by
  cases l with
  | nil => rfl
  | cons c l =>
    rw [noSyncPair, Bool.and_eq_true] at h
    exact h.2

theorem ne_syncByte_of_noSyncPair {c : Byte} {l : List Byte} (h : noSyncPair (syncByte :: c :: l) = true) :
    c ≠ syncByte := by
  rintro rfl
  simp [noSyncPair] at h

/-! ## The invariant -/

theorem State.Noise.needOk {s : State} (h : s.Noise) : needOk s = true := by
  obtain ⟨hn, hst | hst, -⟩ := h <;> rw [needOk_iff, hst, hn] <;> rfl

/-- In pure noise an enabled step hunts on: it drops the head byte, or keeps it in mind as a first sync byte. -/
theorem fireSelected_noise (cfg : Config) {s : State} (h : s.Noise) (he : enabled s = true) :
    ∃ u, fireSelected cfg s = .next (u, none) ∧ u.Noise ∧ u.results = s.results := by
  obtain ⟨hn, hst, ha, hin, hbytes⟩ := h
  obtain ⟨b, rest, hq⟩ := head_of_enabled hn he
  rcases hst with hst | hst <;> rw [hst, hq] at hbytes
  · refine ⟨_, fireSelected_idle cfg hst hn hq, ?_, rfl⟩
    by_cases hb : b = syncByte
    · subst hb
      exact ⟨hn, .inr (by simp), ha, hin, by simpa using hbytes⟩
    · refine ⟨hn, .inl (if_neg hb), ha, hin, ?_⟩
      simpa [hb] using noSyncPair_tail (by simpa using hbytes)
  · have hpair : noSyncPair (syncByte :: b :: (rest ++ fedBytes s.inputs)) = true := by simpa using hbytes
    have hb := ne_syncByte_of_noSyncPair hpair
    refine ⟨_, fireSelected_first cfg hst hn hq, ⟨hn, .inl (if_neg hb), ha, hin, ?_⟩, rfl⟩
    simpa [hb] using noSyncPair_tail (noSyncPair_tail hpair)

/-- In pure noise, the answer is pure noise with one NOT_ENOUGH more. -/
def DryInNoise (s : State) (x : Host.Outcome State Fault Refusal) : Prop :=
  s.Noise → ∃ t, x = .next t ∧ t.Noise ∧ t.results = s.results ++ [nothing .notEnough]

/-- A POLL in pure noise runs dry and leaves pure noise. -/
theorem pollWith_noise (cfg : Config) {s : State} (h : s.Noise) :
    ∃ t, pollWith cfg s = .next t ∧ t.Noise ∧ t.results = s.results ++ [nothing .notEnough] := by
  have dry (s : State) (h : s.Noise) : arrive s = s := arrive_nil s h.2.2.1
  refine pollWith_induction cfg DryInNoise ?short ?yield ?step s h.needOk h
  case short =>
    intro s _ _ h
    rw [dry s h]
    exact ⟨_, rfl, h, rfl⟩
  case yield =>
    intro s u r _ he hx h
    rw [dry s h] at he hx
    obtain ⟨u', hx', -⟩ := fireSelected_noise cfg h he
    simp [hx'] at hx
  case step =>
    intro s u x _ he hx _ ih h
    rw [dry s h] at he hx
    obtain ⟨u', hx', hu, hr⟩ := fireSelected_noise cfg h he
    simp only [hx', Host.Outcome.next.injEq, Prod.mk.injEq, and_true] at hx
    subst hx
    rw [← hr]
    exact ih hu

/-- From pure noise a step answers, with pure noise, and hands over nothing or one NOT_ENOUGH. -/
theorem step_noise {s : State} (h : s.Noise) :
    ∃ t, step s = .next t ∧ t.Noise ∧
      (t.results = s.results ∨ t.results = s.results ++ [nothing .notEnough]) := by
  cases hin : s.inputs with
  | nil => exact ⟨s, step_nil hin, h, .inl rfl⟩
  | cons inp rest =>
    obtain ⟨hn, hst, ha, hinp, hbytes⟩ := h
    rw [hin] at hinp hbytes
    have hrest : ∀ inp ∈ rest, inp.isFeedOrPoll = true := fun i hi => hinp i (List.mem_cons_of_mem _ hi)
    rcases feed_or_pollReq (hinp inp List.mem_cons_self) with ⟨bs, rfl⟩ | rfl
    · exact ⟨_, step_feed hin, ⟨hn, hst, ha, hrest, by simpa [Input.bytes] using hbytes⟩, .inl rfl⟩
    · have hs : State.Noise { s with inputs := rest } :=
        ⟨hn, hst, ha, hrest, by simpa [Input.bytes, pollReq] using hbytes⟩
      obtain ⟨t, hx, ht, hr⟩ := pollWith_noise hardware hs
      exact ⟨t, (step_poll hin).trans hx, ht, .inr hr⟩

/-- Settles O57: the one answer of the step is pure noise. -/
theorem noiseStaysNoiseAtEveryStep : Obligations.NoiseStaysNoiseAtEveryStep := by
  intro s t h hx
  obtain ⟨t', hx', ht, hr⟩ := step_noise h
  obtain rfl := Host.Outcome.next.inj (hx'.symm.trans hx)
  exact ⟨ht, hr⟩

/-- A run whose first step answers goes on from there. -/
theorem stepMany_of_step {s t : State} (h : step s = .next t) (k : Nat) : stepMany (k + 1) s = stepMany k t := by
  rw [stepMany, h]

/-- Any number of steps from pure noise. -/
theorem stepMany_noise (k : Nat) {s : State} (h : s.Noise) :
    ∃ t rs, stepMany k s = .next t ∧ t.results = s.results ++ rs ∧ (∀ r ∈ rs, r = nothing .notEnough) ∧ t.Noise := by
  induction k generalizing s with
  | zero => exact ⟨s, [], rfl, (List.append_nil _).symm, by simp, h⟩
  | succ k ih =>
    obtain ⟨u, hx, hu, hr⟩ := step_noise h
    obtain ⟨t, rs, ht, hrs, hall, hnoise⟩ := ih hu
    have hrun : stepMany (k + 1) s = .next t := (stepMany_of_step hx k).trans ht
    rcases hr with hr | hr <;> rw [hr] at hrs
    · exact ⟨t, rs, hrun, hrs, hall, hnoise⟩
    · exact ⟨t, nothing .notEnough :: rs, hrun, by simpa using hrs, by simpa using hall, hnoise⟩

/-- Settles O37: the idle core with an empty queue, about to be fed bytes without a sync pair, is in pure noise. -/
theorem noiseWithoutASyncPairNeverReports : Obligations.NoiseWithoutASyncPairNeverReports := by
  intro s hst hn hq ha hin hbytes k _
  have hs : s.Noise := ⟨hn, .inl hst, ha, hin, by simpa [hst, hq] using hbytes⟩
  obtain ⟨t, rs, hx, hr, hall, -, hend, -⟩ := stepMany_noise k hs
  exact ⟨t, rs, hx, hr, hall, hend⟩

end Sys2Proof.Machine
end

section
/-! SUPPORT. A POLL that meets a frame (60_exceptions.md sections 2 and 3, 42_payload_decoder.md sections 3 and 4,
41_frame_assembler.md section 6). -/

namespace Sys2Proof.Machine

/-! ## One step of a POLL in each state of a frame, with what arrives before it (R58, R131 to R137) -/

section
variable (cfg : Config) {s : State} {b : Byte} {q : List Byte}

/-- What arrives stands behind what is queued. -/
theorem arrive_rxq_append {p : List Byte} (hq : s.rxq = p ++ q) :
    (arrive s).rxq = p ++ (q ++ s.arrivals.headD []) := by
  rw [arrive_rxq, hq, List.append_assoc]

theorem arrive_rxq_cons (hq : s.rxq = b :: q) : (arrive s).rxq = b :: (q ++ s.arrivals.headD []) := by
  rw [arrive_rxq, hq, List.cons_append]

/-- The POLL from `s` goes on from `u`, one sampling later: `q` is left of the queue, with what arrived behind it. -/
def PollGoesOn (cfg : Config) (s u : State) (q : List Byte) : Prop :=
  pollWith cfg s = pollWith cfg u ∧ u.rxq = q ++ s.arrivals.headD [] ∧ u.arrivals = s.arrivals.tail ∧
    u.results = s.results

/-- A step that reads the head byte and does not yield; `u` is what it leaves. -/
theorem pollGoesOn_of_fireSelected {u : State} (hok : needOk s = true) (hn : s.need = 1#8) (hq : s.rxq = b :: q)
    (hx : fireSelected cfg (arrive s) = .next (u, none)) (hu : u.rxq = q ++ s.arrivals.headD []) :
    PollGoesOn cfg s u q := by
  have hok' : needOk (arrive s) = true := (needOk_arrive s).trans hok
  have he : enabled (arrive s) = true := by simp [enabled_iff, hn, hq]
  obtain ⟨-, -, ha, hr, -⟩ := fireSelected_next_frame hok' he hx
  exact ⟨pollWith_step cfg hok he hx, hu, ha.trans (arrive_arrivals s), hr.trans (arrive_results s)⟩

theorem pollGoesOn_idle_sync (hst : s.st = .idle) (hn : s.need = 1#8) (hq : s.rxq = syncByte :: q) :
    ∃ u, u.st = .sawFirstSync ∧ u.need = 1#8 ∧ PollGoesOn cfg s u q := by
  have hx := fireSelected_idle cfg ((arrive_st s).trans hst) ((arrive_need s).trans hn) (arrive_rxq_cons hq)
  have hok : needOk s = true := (needOk_iff s).mpr (by rw [hst, hn]; rfl)
  exact ⟨_, by simp, by simpa using hn, pollGoesOn_of_fireSelected cfg hok hn hq hx rfl⟩

theorem pollGoesOn_first_sync (hst : s.st = .sawFirstSync) (hn : s.need = 1#8) (hq : s.rxq = syncByte :: q) :
    ∃ u, u.st = .sawSecondSync ∧ u.need = 1#8 ∧ PollGoesOn cfg s u q := by
  have hx := fireSelected_first cfg ((arrive_st s).trans hst) ((arrive_need s).trans hn) (arrive_rxq_cons hq)
  have hok : needOk s = true := (needOk_iff s).mpr (by rw [hst, hn]; rfl)
  exact ⟨_, by simp, by simpa using hn, pollGoesOn_of_fireSelected cfg hok hn hq hx rfl⟩

theorem pollGoesOn_second (hst : s.st = .sawSecondSync) (hn : s.need = 1#8) (hq : s.rxq = b :: q) :
    ∃ u, u.st = .haveMsgId ∧ u.need = 1#8 ∧ u.msgId = b ∧ PollGoesOn cfg s u q := by
  have hx := fireSelected_second cfg ((arrive_st s).trans hst) ((arrive_need s).trans hn) (arrive_rxq_cons hq)
  have hok : needOk s = true := (needOk_iff s).mpr (by rw [hst, hn]; rfl)
  exact ⟨_, rfl, by simpa using hn, rfl, pollGoesOn_of_fireSelected cfg hok hn hq hx rfl⟩

theorem pollGoesOn_id (hst : s.st = .haveMsgId) (hn : s.need = 1#8) (hq : s.rxq = b :: q) :
    ∃ u, u.st = .haveMsgLen ∧ u.need = b ∧ u.msgId = s.msgId ∧ u.msgLen = b ∧ PollGoesOn cfg s u q := by
  have hx := fireSelected_id cfg ((arrive_st s).trans hst) ((arrive_need s).trans hn) (arrive_rxq_cons hq)
  have hok : needOk s = true := (needOk_iff s).mpr (by rw [hst, hn]; rfl)
  exact ⟨_, rfl, rfl, by simp, rfl, pollGoesOn_of_fireSelected cfg hok hn hq hx rfl⟩

theorem pollWith_payload {p : List Byte} {r : PollResult} (hst : s.st = .haveMsgLen) (hn : s.need = s.msgLen)
    (hq : s.rxq = p ++ q) (hp : p.length = s.msgLen.toNat) (hv : verdict cfg s.msgId s.msgLen p = some r) :
    pollWith cfg s = .next (hand r ((arrive s).afterPayload p (q ++ s.arrivals.headD []))) := by
  refine pollWith_yield cfg ?_ ?_
  · simp [enabled_iff, hn, hq, hp]
  · rw [fireSelected_len cfg ((arrive_st s).trans hst), fireGetpay_next cfg ((arrive_st s).trans hst)
      (by simpa using hn) (arrive_rxq_append hq) (by simpa using hp), arrive_msgId, arrive_msgLen, hv]

end

/-! ## A whole frame -/

/-- The chunks that arrive at the first samplings, one at a time. -/
theorem flatten_take_succ (l : List (List Byte)) (n : Nat) :
    (l.take (n + 1)).flatten = l.headD [] ++ (l.tail.take n).flatten := by
  cases l <;> simp

/-- From `Idle` a POLL reads a frame's header in four steps, and its payload in the fifth (R92, R187). -/
theorem pollWith_frame (cfg : Config) {s : State} {id len : Byte} {p rest : List Byte} {r : PollResult}
    (hst : s.st = .idle) (hn : s.need = 1#8) (hp : p.length = len.toNat)
    (hq : s.rxq = syncByte :: syncByte :: id :: len :: (p ++ rest)) (hv : verdict cfg id len p = some r) :
    ∃ t, pollWith cfg s = .next t ∧ t.st = .idle ∧ t.need = 1#8 ∧ t.rxq = rest ++ (s.arrivals.take 5).flatten ∧
      t.arrivals = s.arrivals.drop 5 ∧ t.results = s.results ++ [r] := by
  obtain ⟨u1, hst1, hn1, h1, hq1, ha1, hr1⟩ := pollGoesOn_idle_sync cfg hst hn hq
  obtain ⟨u2, hst2, hn2, h2, hq2, ha2, hr2⟩ := pollGoesOn_first_sync cfg hst1 hn1 hq1
  obtain ⟨u3, hst3, hn3, hid3, h3, hq3, ha3, hr3⟩ := pollGoesOn_second cfg hst2 hn2 hq2
  obtain ⟨u4, hst4, hn4, hid4, hl4, h4, hq4, ha4, hr4⟩ := pollGoesOn_id cfg hst3 hn3 hq3
  have hq4' : u4.rxq = p ++ (rest ++ s.arrivals.headD [] ++ u1.arrivals.headD [] ++ u2.arrivals.headD [] ++
      u3.arrivals.headD []) := by
    rw [hq4]
    simp only [List.append_eq, List.append_assoc]
  have hpay := pollWith_payload cfg hst4 (hn4.trans hl4.symm) hq4' (by rw [hp, hl4]) (by rw [hid4, hid3, hl4, hv])
  refine ⟨_, h1.trans (h2.trans (h3.trans (h4.trans hpay))), rfl, rfl, ?_, ?_, ?_⟩
  · simp [State.afterPayload, flatten_take_succ, ha1, ha2, ha3, ha4]
  · simp [State.afterPayload, ← List.drop_one, ha1, ha2, ha3, ha4]
  · simp [State.afterPayload, hr1, hr2, hr3, hr4]

/-- The four checks of this hardware, in their order (R187, D8, D9, D17). -/
theorem verdict_hardware_eq {id len : Byte} {p : List Byte} (hp : p.length = len.toNat) :
    verdict hardware id len p = some (
      if len.toNat < 2 then nothing .badLen
      else if verify id len p = false then nothing .cksum
      else if id ≠ 0x01#8 then unknownKind id
      else if h : (contentOf p).length = 12 then .message id (decodePose (contentOf p) h)
      else nothing .contentLen) := by
  by_cases h2 : len.toNat < 2
  · rw [if_pos h2, verdict_some_of_short hardware id len (hp ▸ h2)]
  rw [if_neg h2]
  cases hv : verify id len p with
  | false => rw [if_pos rfl, verdict_of_verify_false hardware (by omega) hv]
  | true =>
    rw [if_neg (by decide)]
    by_cases hid : id = 0x01#8
    · rw [if_neg (not_not.mpr hid)]
      have hk := lookup_hardware_of_eq hid
      split_ifs with hc
      · exact verdict_of_applyEntry hv hk (dif_pos hc)
      · exact verdict_of_applyEntry_none hv hk (dif_neg hc)
    · rw [if_pos hid, verdict_of_lookup_none hv ((lookup_hardware_eq_none_iff id).mpr hid) rfl]

/-- Settles O30: the frame's verdict, written out as the four checks. -/
theorem pollOnAFrameGivesItsVerdict : Obligations.PollOnAFrameGivesItsVerdict := by
  intro s id len p rest hst hn hp hq
  exact pollWith_frame hardware hst hn hp (by simpa [syncByte] using hq) (verdict_hardware_eq hp)

/-! ## The frames that a sender builds (R92) -/

/-- A built frame of a registered kind yields the message of its content, whatever stands behind it. -/
theorem pollWith_mkFrame (cfg : Config) {s : State} {id : Byte} {c rest : List Byte} {e : Entry} {fields : Fields}
    (hst : s.st = .idle) (hn : s.need = 1#8) (ha : s.arrivals = []) (hq : s.rxq = mkFrame id c ++ rest)
    (hc : c.length ≤ 253) (hk : lookup cfg id = some e) (he : applyEntry e c = some fields) :
    ∃ t, pollWith cfg s = .next t ∧ t.st = .idle ∧ t.need = 1#8 ∧ t.rxq = rest ∧
      t.results = s.results ++ [.message id fields] := by
  have hlen : (BitVec.ofNat 8 (c.length + 2)).toNat = c.length + 2 := by
    rw [BitVec.toNat_ofNat]
    omega
  have hv : verdict cfg id (BitVec.ofNat 8 (c.length + 2)) (mkPayload id c) = some (.message id fields) :=
    verdict_of_applyEntry (verify_append_le16_compute _ _ c) hk (by rwa [mkPayload, le16, contentOf_append])
  obtain ⟨t, hx, hst', hn', hq', -, hr⟩ :=
    pollWith_frame cfg hst hn (by simp [mkPayload, le16, hlen]) (by simpa [mkFrame] using hq) hv
  exact ⟨t, hx, hst', hn', by simpa [ha] using hq', hr⟩

/-- The four bytes of a 32-bit pattern, least significant first, make the pattern again (R165). -/
theorem unle32_le32 (v : U32) :
    unle32 (v.extractLsb' 0 8) (v.extractLsb' 8 8) (v.extractLsb' 16 8) (v.extractLsb' 24 8) = v := by
  apply BitVec.eq_of_toNat_eq
  have hv : v.toNat < 4294967296 := v.isLt
  simp only [unle32_toNat, BitVec.extractLsb'_toNat, Nat.shiftRight_eq_div_pow]
  omega

theorem applyEntry_poseEntry_le32 (theta x y : U32) :
    applyEntry poseEntry (le32 theta ++ le32 x ++ le32 y) = some (.pose x y theta) := by
  simp only [le32, List.cons_append, List.nil_append, applyEntry_poseEntry, unle32_le32]

/-- Settles O31: the twelve bytes are decoded to the patterns they came from. -/
theorem poseFramePatternsComeOutUnchanged : Obligations.PoseFramePatternsComeOutUnchanged := by
  intro s theta x y rest hst hn ha hq
  exact pollWith_mkFrame hardware hst hn ha hq (by simp [le32]) (lookup_hardware_of_eq rfl)
    (applyEntry_poseEntry_le32 theta x y)

/-- Settles O32: the entry is the one that the registry finds under its id. -/
theorem anyRegisteredKindIsDecoded : Obligations.AnyRegisteredKindIsDecoded := by
  intro cfg e s c rest h hr he hst hn ha hq
  exact pollWith_mkFrame cfg hst hn ha hq (h ▸ hr.2 e he) (lookup_of_mem hr he) (dif_pos h)

/-- Settles O33: a frame, then a built frame, each by its POLL. -/
theorem aGoodFrameBehindAnyFrameIsFound : Obligations.AGoodFrameBehindAnyFrameIsFound := by
  intro s id len p c rest h hst hn ha hp hq
  obtain ⟨r, hv⟩ := Option.isSome_iff_exists.mp (verdict_hardware_isSome id len p)
  obtain ⟨t, hx, hst', hn', hq', ha', hr⟩ := pollWith_frame hardware hst hn hp (by simpa [syncByte] using hq) hv
  rw [ha, List.take_nil, List.flatten_nil, List.append_nil] at hq'
  rw [ha, List.drop_nil] at ha'
  obtain ⟨u, hxu, hstu, hnu, hqu, hru⟩ :=
    pollWith_mkFrame hardware hst' hn' ha' hq' (by omega) (lookup_hardware_of_eq rfl) (dif_pos h)
  exact ⟨t, u, r, hx, hq', hr, verdict_ne_notEnough hv, hxu, hstu, hnu, hqu, by rw [hru, hr, List.append_assoc]; rfl⟩

/-! ## Enough bytes end the frame (R192) -/

/-- The POLL from `s` ends a frame: `Idle`, `NEED` 1, one result other than NOT_ENOUGH. -/
def PollEndsFrame (s : State) : Prop :=
  ∃ t r, exec .poll s = .next t ∧ t.results = s.results ++ [r] ∧ r ≠ nothing .notEnough ∧ t.st = .idle ∧ t.need = 1#8

theorem PollGoesOn.pollEndsFrame {s u : State} {q : List Byte} (h : PollGoesOn hardware s u q) (hu : PollEndsFrame u) :
    PollEndsFrame s := by
  obtain ⟨hx, -, -, hr⟩ := h
  rw [PollEndsFrame, exec_poll, hx, ← hr]
  exact hu

theorem PollGoesOn.length_le {cfg : Config} {s u : State} {q : List Byte} (h : PollGoesOn cfg s u q) :
    q.length ≤ u.rxq.length := by
  obtain ⟨-, hq, -⟩ := h
  rw [hq, List.length_append]
  exact Nat.le_add_right _ _

theorem pollEndsFrame_len {s : State} (hst : s.st = .haveMsgLen) (hn : s.need = s.msgLen) (hq : 255 ≤ s.rxq.length) :
    PollEndsFrame s := by
  have hl : s.msgLen.toNat < 256 := s.msgLen.isLt
  have hp : (s.rxq.take s.msgLen.toNat).length = s.msgLen.toNat := by rw [List.length_take]; omega
  obtain ⟨r, hv⟩ := Option.isSome_iff_exists.mp
    (verdict_hardware_isSome s.msgId s.msgLen (s.rxq.take s.msgLen.toNat))
  have hx := pollWith_payload hardware hst hn (List.take_append_drop s.msgLen.toNat s.rxq).symm hp hv
  exact ⟨_, r, hx, by simp [State.afterPayload], verdict_ne_notEnough hv, rfl, rfl⟩

theorem pollEndsFrame_id {s : State} (hst : s.st = .haveMsgId) (hn : s.need = 1#8) (hq : 256 ≤ s.rxq.length) :
    PollEndsFrame s := by
  obtain ⟨b, q, hbq⟩ := List.exists_cons_of_length_pos (by omega : 0 < s.rxq.length)
  rw [hbq, List.length_cons] at hq
  obtain ⟨u, hstu, hnu, -, hlu, hgo⟩ := pollGoesOn_id hardware hst hn hbq
  exact hgo.pollEndsFrame (pollEndsFrame_len hstu (hnu.trans hlu.symm) (by have := hgo.length_le; omega))

theorem pollEndsFrame_second {s : State} (hst : s.st = .sawSecondSync) (hn : s.need = 1#8)
    (hq : 257 ≤ s.rxq.length) : PollEndsFrame s := by
  obtain ⟨b, q, hbq⟩ := List.exists_cons_of_length_pos (by omega : 0 < s.rxq.length)
  rw [hbq, List.length_cons] at hq
  obtain ⟨u, hstu, hnu, -, hgo⟩ := pollGoesOn_second hardware hst hn hbq
  exact hgo.pollEndsFrame (pollEndsFrame_id hstu hnu (by have := hgo.length_le; omega))

/-- Settles O38: at most two header bytes and 255 payload bytes are still to be read. -/
theorem enoughBytesAlwaysBringTheCoreBackToIdle : Obligations.EnoughBytesAlwaysBringTheCoreBackToIdle := by
  intro s hn hst hq
  rw [needOk_iff] at hn
  rcases hst with hst | hst | hst <;> rw [hst] at hn
  · exact pollEndsFrame_second hst hn hq
  · exact pollEndsFrame_id hst hn (by omega)
  · exact pollEndsFrame_len hst hn (by omega)

end Sys2Proof.Machine
end

section
/-! SUPPORT. What a POLL does not depend on: how the bytes are cut into pieces, when during it they arrive, what was
handed over before (41_frame_assembler.md section 6, R145, D12). -/

namespace Sys2Proof.Machine

/-! ## A step sees nothing of the outside but the bytes it reads -/

/-- `s` with the outside changed: `bs` queued behind its bytes, another schedule, other results, other requests. -/
def State.outside (s : State) (bs : List Byte) (arr : List (List Byte)) (rs : List PollResult) (ins : List Input) :
    State :=
  { s with rxq := s.rxq ++ bs, arrivals := arr, results := rs, inputs := ins }

/-- `s` with other results and other requests: what the host sees and asks for. -/
def State.withHost (s : State) (rs : List PollResult) (ins : List Input) : State :=
  { s with results := rs, inputs := ins }

/-- `s` with everything that arrives during POLLs already queued. -/
def State.queued (s : State) : State := { s with rxq := s.stream, arrivals := [] }

theorem append_eq_outside (bs : List Byte) (s : State) : append bs s = s.outside bs s.arrivals s.results s.inputs := rfl

theorem withHost_eq_outside (s : State) (rs : List PollResult) (ins : List Input) :
    s.withHost rs ins = s.outside [] s.arrivals rs ins := by
  rw [State.outside, List.append_nil]
  rfl

theorem queued_eq_outside (s : State) : s.queued = s.outside s.arrivals.flatten [] s.results s.inputs := rfl

section
variable {cfg : Config} {s u : State} {o : Option PollResult}

theorem enabled_outside (he : enabled s = true) (bs : List Byte) (arr : List (List Byte)) (rs : List PollResult)
    (ins : List Input) : enabled (s.outside bs arr rs ins) = true := by
  rw [enabled_iff] at he ⊢
  exact he.trans (by simp [State.outside])

/-- An enabled step does the same whatever the outside is, and leaves it as it is. -/
theorem fireSelected_outside (hn : needOk s = true) (he : enabled s = true) (h : fireSelected cfg s = .next (u, o))
    (bs : List Byte) (arr : List (List Byte)) (rs : List PollResult) (ins : List Input) :
    fireSelected cfg (s.outside bs arr rs ins) = .next (u.outside bs arr rs ins, o) := by
  have need {st : AsmState} (hst : s.st = st) : s.need = needFor st s.msgLen := hst ▸ (needOk_iff s).mp hn
  have queue {p rest : List Byte} (hq : s.rxq = p ++ rest) : (s.outside bs arr rs ins).rxq = p ++ (rest ++ bs) := by
    rw [State.outside, hq, List.append_assoc]
  rcases fireSelected_cases cfg hn he with ⟨b, rest, hst, hq, hx⟩ | ⟨b, rest, hst, hq, hx⟩ | ⟨b, rest, hst, hq, hx⟩ |
    ⟨b, rest, hst, hq, hx⟩ | ⟨p, rest, hst, hq, hp, hx⟩ <;>
    obtain ⟨rfl, rfl⟩ := Prod.mk.inj (Host.Outcome.next.inj (h.symm.trans hx))
  · exact fireSelected_idle cfg hst (need hst) (queue (p := [b]) hq)
  · exact fireSelected_first cfg hst (need hst) (queue (p := [b]) hq)
  · exact fireSelected_second cfg hst (need hst) (queue (p := [b]) hq)
  · exact fireSelected_id cfg hst (need hst) (queue (p := [b]) hq)
  · exact (fireSelected_len (s := s.outside bs arr rs ins) cfg hst).trans
      (fireGetpay_next cfg hst (need hst) (queue hq) hp)

theorem fireSelected_append (hn : needOk s = true) (he : enabled s = true) (h : fireSelected cfg s = .next (u, o))
    (bs : List Byte) : fireSelected cfg (append bs s) = .next (append bs u, o) := by
  obtain ⟨-, -, ha, hr, -, hi, -⟩ := fireSelected_next_frame hn he h
  rw [append_eq_outside, append_eq_outside, ha, hr, hi]
  exact fireSelected_outside hn he h _ _ _ _

theorem fireSelected_withHost (hn : needOk s = true) (he : enabled s = true) (h : fireSelected cfg s = .next (u, o))
    (rs : List PollResult) (ins : List Input) :
    fireSelected cfg (s.withHost rs ins) = .next (u.withHost rs ins, o) := by
  obtain ⟨-, -, ha, -⟩ := fireSelected_next_frame hn he h
  rw [withHost_eq_outside, withHost_eq_outside, ha]
  exact fireSelected_outside hn he h _ _ _ _

theorem fireSelected_queued (hn : needOk s = true) (he : enabled s = true) (h : fireSelected cfg s = .next (u, o)) :
    fireSelected cfg s.queued = .next (u.queued, o) := by
  obtain ⟨-, -, ha, hr, -, hi, -⟩ := fireSelected_next_frame hn he h
  rw [queued_eq_outside, queued_eq_outside, ha, hr, hi]
  exact fireSelected_outside hn he h _ _ _ _

end

/-! ## Results and requests -/

theorem arrive_withHost (s : State) (rs : List PollResult) (ins : List Input) :
    arrive (s.withHost rs ins) = (arrive s).withHost rs ins := by
  rw [arrive_eq, arrive_eq]
  rfl

/-- What the POLL from `s` answers, it answers whatever was handed over before and is asked for afterwards. -/
def SameForEveryHost (cfg : Config) (s : State) (x : Host.Outcome State Fault Refusal) : Prop :=
  ∃ t r, x = .next t ∧ t.results = s.results ++ [r] ∧
    ∀ rs ins, pollWith cfg (s.withHost rs ins) = .next (t.withHost (rs ++ [r]) ins)

theorem pollWith_sameForEveryHost (cfg : Config) (s : State) (hn : needOk s = true) :
    SameForEveryHost cfg s (pollWith cfg s) := by
  refine pollWith_induction cfg (SameForEveryHost cfg) ?short ?yield ?step s hn
  case short =>
    intro s _ he
    refine ⟨_, nothing .notEnough, rfl, by simp, fun rs ins => ?_⟩
    rw [pollWith_notEnough cfg (by rw [arrive_withHost]; exact he), arrive_withHost]
    rfl
  case yield =>
    intro s u r hn he h
    have hn' : needOk (arrive s) = true := (needOk_arrive s).trans hn
    obtain ⟨-, -, -, hr, -⟩ := fireSelected_next_frame hn' he h
    refine ⟨_, r, rfl, by simp [hr], fun rs ins => ?_⟩
    have hx := fireSelected_withHost hn' he h rs ins
    rw [← arrive_withHost] at hx
    exact pollWith_yield cfg (by rw [arrive_withHost]; exact he) hx
  case step =>
    intro s u x hn he h _ hx
    have hn' : needOk (arrive s) = true := (needOk_arrive s).trans hn
    obtain ⟨-, -, -, hr, -⟩ := fireSelected_next_frame hn' he h
    obtain ⟨t, r, rfl, ht, hhost⟩ := hx
    refine ⟨t, r, rfl, by rw [ht, hr, arrive_results], fun rs ins => ?_⟩
    rw [← hhost rs ins]
    exact pollWith_step cfg hn (by rw [arrive_withHost]; exact he)
      (by rw [arrive_withHost]; exact fireSelected_withHost hn' he h rs ins)

/-! ## More bytes behind those queued (R145) -/

/-- The POLL with `bs` behind the queue: where the POLL from `s` ran dry it goes on with `bs` from where that one stood,
and where that one ended a frame it ends it too and leaves `bs` queued. -/
def GoesOnWith (cfg : Config) (bs : List Byte) (s : State) (x : Host.Outcome State Fault Refusal) : Prop :=
  s.arrivals = [] → ∃ t r, x = .next t ∧ t.results = s.results ++ [r] ∧
    pollWith cfg (append bs s) =
      if r = nothing .notEnough then pollWith cfg (append bs (t.withHost s.results s.inputs)) else .next (append bs t)

theorem pollWith_goesOnWith (cfg : Config) (bs : List Byte) (s : State) (hn : needOk s = true) :
    GoesOnWith cfg bs s (pollWith cfg s) := by
  refine pollWith_induction cfg (GoesOnWith cfg bs) ?short ?yield ?step s hn
  case short =>
    intro s _ he ha
    rw [arrive_nil s ha] at he ⊢
    exact ⟨_, _, rfl, rfl, (if_pos rfl).symm⟩
  case yield =>
    intro s u r hn he h ha
    rw [arrive_nil s ha] at he h
    obtain ⟨hr, -⟩ := fireSelected_yield hn he h
    obtain ⟨-, -, -, hres, -⟩ := fireSelected_next_frame hn he h
    have harr : arrive (append bs s) = append bs s := arrive_nil _ ha
    refine ⟨_, r, rfl, by simp [hres], ?_⟩
    rw [if_neg hr]
    exact pollWith_yield cfg (by rw [harr]; exact enabled_outside he _ _ _ _)
      (by rw [harr]; exact fireSelected_append hn he h bs)
  case step =>
    intro s u x hn he h _ hx ha
    rw [arrive_nil s ha] at he h
    obtain ⟨-, -, harru, hres, -, hin, -⟩ := fireSelected_next_frame hn he h
    have harr : arrive (append bs s) = append bs s := arrive_nil _ ha
    obtain ⟨t, r, rfl, ht, happ⟩ := hx (harru.trans ha)
    refine ⟨t, r, rfl, by rw [ht, hres], ?_⟩
    rw [← hres, ← hin, ← happ]
    exact pollWith_step cfg hn (by rw [harr]; exact enabled_outside he _ _ _ _)
      (by rw [harr]; exact fireSelected_append hn he h bs)

/-- Settles O35: both POLLs go on from where the first ran dry, with the same bytes. -/
theorem aPollThatRanDryLosesNothing : Obligations.APollThatRanDryLosesNothing := by
  intro s t bs hn ha hx hres
  obtain ⟨t', r, ht', hres', happ⟩ := pollWith_goesOnWith hardware bs s hn ha
  obtain rfl := Host.Outcome.next.inj (ht'.symm.trans hx)
  obtain rfl : r = nothing .notEnough := by simpa [nothing] using hres'.symm.trans hres
  obtain ⟨t', -, -, ht', -, -, -, hnt, -, hin, -⟩ := pollWith_answer hardware s hn
  obtain rfl := Host.Outcome.next.inj (ht'.symm.trans hx)
  obtain ⟨u, r, hu, hru, hhost⟩ := pollWith_sameForEveryHost hardware (append bs t') hnt
  have hinu : u.inputs = t'.inputs := by
    obtain ⟨-, -, h⟩ := exec_poll_frame hu
    exact h
  refine ⟨u, r, ?_, ?_⟩
  · rw [exec_poll, happ, if_pos rfl, ← hin]
    refine (hhost s.results t'.inputs).trans ?_
    rw [← hinu]
    rfl
  · rw [exec_poll, hu, ← append_results bs t', ← hru]

/-! ## When the bytes arrive (D12) -/

theorem arrive_queued (s : State) : arrive s.queued = s.queued := arrive_nil _ rfl

theorem queued_arrive (s : State) : (arrive s).queued = s.queued := by
  rw [State.queued, arrive_stream, arrive_eq]
  rfl

/-- Where the POLL from `s` ends a frame, the POLL that finds everything queued ends it in the same state. -/
def SameWhenQueued (cfg : Config) (s : State) (x : Host.Outcome State Fault Refusal) : Prop :=
  ∀ t r, x = .next t → t.results = s.results ++ [r] → r ≠ nothing .notEnough → pollWith cfg s.queued = .next t.queued

theorem pollWith_sameWhenQueued (cfg : Config) (s : State) (hn : needOk s = true) :
    SameWhenQueued cfg s (pollWith cfg s) := by
  have enabled_queued {s : State} (he : enabled (arrive s) = true) : enabled (arrive s.queued) = true := by
    rw [arrive_queued, ← queued_arrive]
    exact enabled_outside he _ _ _ _
  have fire_queued {s u : State} {o : Option PollResult} (hn : needOk s = true) (he : enabled (arrive s) = true)
      (h : fireSelected cfg (arrive s) = .next (u, o)) : fireSelected cfg (arrive s.queued) = .next (u.queued, o) := by
    rw [arrive_queued, ← queued_arrive]
    exact fireSelected_queued ((needOk_arrive s).trans hn) he h
  refine pollWith_induction cfg (SameWhenQueued cfg) ?short ?yield ?step s hn
  case short =>
    rintro s _ _ t r hx hr hne
    obtain rfl := Host.Outcome.next.inj hx
    exact absurd (by simpa using hr.symm) hne
  case yield =>
    rintro s u r' hn he h t r hx - -
    obtain rfl := Host.Outcome.next.inj hx
    exact pollWith_yield cfg (enabled_queued he) (fire_queued hn he h)
  case step =>
    rintro s u x hn he h _ ih t r hx hr hne
    obtain ⟨-, -, -, hres, -⟩ := fireSelected_next_frame ((needOk_arrive s).trans hn) he h
    rw [pollWith_step (s := s.queued) cfg hn (enabled_queued he) (fire_queued hn he h)]
    exact ih t r hx (by rw [hr, hres, arrive_results]) hne

/-- Settles O36, by the induction on POLLs. -/
theorem arrivalsDuringAPollDoNotMatter : Obligations.ArrivalsDuringAPollDoNotMatter := by
  intro s t r hn hx hr hne
  exact pollWith_sameWhenQueued hardware s hn t r hx hr hne

end Sys2Proof.Machine
end

section
/-! SUPPORT. A frame fed in pieces (41_frame_assembler.md section 6, R145). -/

namespace Sys2Proof.Machine

theorem append_empty (s : State) : append [] s = s := by simp [append]

/-- `Idle` with nothing queued. -/
def Drained (s : State) : Prop := s.st = .idle ∧ s.need = 1#8 ∧ s.rxq = []

/-- With `bs` queued behind its bytes, a POLL from `s` hands over `m` and leaves nothing. -/
def Delivers (m : PollResult) (bs : List Byte) (s : State) : Prop :=
  ∃ y, pollWith hardware (append bs s) = .next y ∧ Drained y ∧ y.results = s.results ++ [m]

/-- While the bytes `bs` are still to be fed, what the POLLs to come will hand over beside NOT_ENOUGH: the one result
`m` of a frame under way, or nothing, the frame being over. -/
def Awaits (bs : List Byte) (s : State) : Option PollResult → Prop
  | some m => s.arrivals = [] ∧ needOk s = true ∧ m ≠ nothing .notEnough ∧ Delivers m bs s
  | none => s.arrivals = [] ∧ bs = [] ∧ Drained s

/-- What is awaited does not depend on the requests. -/
theorem Awaits.withInputs {bs : List Byte} {s : State} {o : Option PollResult} (h : Awaits bs s o) (ins : List Input) :
    Awaits bs { s with inputs := ins } o := by
  cases o with
  | none => exact h
  | some m =>
    obtain ⟨ha, hn, hm, y, hy, hd, hr⟩ := h
    refine ⟨ha, hn, hm, ?_⟩
    obtain ⟨y', m', hy', hr', hhost⟩ := pollWith_sameForEveryHost hardware (append bs s) hn
    obtain rfl := Host.Outcome.next.inj (hy'.symm.trans hy)
    obtain rfl : m' = m := by simpa using hr'.symm.trans hr
    exact ⟨_, hhost s.results ins, hd, rfl⟩

/-- A feed brings the bytes that were to be fed. -/
theorem Awaits.feed {bs bs' : List Byte} {s : State} {o : Option PollResult} (h : Awaits (bs ++ bs') s o) :
    Awaits bs' (append bs s) o := by
  cases o with
  | none =>
    obtain ⟨ha, hbs, hst, hn, hq⟩ := h
    obtain ⟨rfl, rfl⟩ := List.append_eq_nil_iff.mp hbs
    exact ⟨ha, rfl, hst, hn, by simpa using hq⟩
  | some m =>
    obtain ⟨ha, hn, hm, y, hy, hd, hr⟩ := h
    have happ : append bs' (append bs s) = append (bs ++ bs') s := by
      simp [append]
    exact ⟨ha, hn, hm, y, by rw [happ, hy], hd, hr⟩

/-- A POLL on the way: it runs dry and what is awaited stays awaited, or it hands over what was awaited. -/
theorem Awaits.poll {bs : List Byte} {s : State} {o : Option PollResult} (h : Awaits bs s o) :
    ∃ t r, pollWith hardware s = .next t ∧ t.results = s.results ++ [r] ∧ t.inputs = s.inputs ∧
      (r = nothing .notEnough ∧ Awaits bs t o ∨ r ≠ nothing .notEnough ∧ o = some r ∧ Awaits bs t none) := by
  cases o with
  | none =>
    obtain ⟨ha, hbs, hst, hn, hq⟩ := h
    have he : enabled (arrive s) = false := by
      rw [arrive_nil s ha, ← Bool.not_eq_true, enabled_iff, hn, hq]
      decide
    refine ⟨_, _, pollWith_notEnough hardware he, by simp, by simp, .inl ⟨rfl, ?_⟩⟩
    rw [arrive_nil s ha]
    exact ⟨ha, hbs, hst, hn, hq⟩
  | some m =>
    obtain ⟨ha, hn, hm, y, hy, hd, hyr⟩ := h
    obtain ⟨t, r, -, hx, hr, -, -, hnt, -, hin, -, hat, -⟩ := pollWith_answer hardware s hn
    refine ⟨t, r, hx, hr, hin, ?_⟩
    by_cases hdry : r = nothing .notEnough
    · subst hdry
      obtain ⟨u, r', hus, hut⟩ := aPollThatRanDryLosesNothing s t bs hn ha hx hr
      obtain rfl := Host.Outcome.next.inj (hus.symm.trans hy)
      obtain rfl : r' = m := by simpa using hyr
      exact .inl ⟨rfl, hat ha, hnt, hm, _, hut, hd, rfl⟩
    · obtain ⟨t', r', ht', hr', happ⟩ := pollWith_goesOnWith hardware bs s hn ha
      obtain rfl := Host.Outcome.next.inj (ht'.symm.trans hx)
      obtain rfl : r' = r := by simpa using hr'.symm.trans hr
      rw [if_neg hdry] at happ
      obtain rfl := Host.Outcome.next.inj (happ.symm.trans hy)
      obtain ⟨hst, hneed, hq⟩ := hd
      obtain ⟨hq, hbs⟩ := List.append_eq_nil_iff.mp hq
      obtain rfl : r' = m := by simpa [hr] using hyr
      exact .inr ⟨hdry, rfl, hat ha, hbs, hst, hneed, hq⟩

/-- The POLL behind the last byte leaves nothing queued, and nothing is awaited any more. -/
theorem Awaits.last_poll {s : State} {o : Option PollResult} (h : Awaits [] s o) :
    ∃ t r, pollWith hardware s = .next t ∧ t.results = s.results ++ [r] ∧ t.inputs = s.inputs ∧ Drained t ∧
      [r].filter (· != nothing .notEnough) = o.toList := by
  obtain ⟨t, r, hx, hr, hin, hcase⟩ := h.poll
  refine ⟨t, r, hx, hr, hin, ?_⟩
  rcases hcase with ⟨rfl, ht⟩ | ⟨hne, rfl, ht⟩
  · cases o with
    | none =>
      obtain ⟨-, -, hd⟩ := ht
      exact ⟨hd, by simp⟩
    | some m =>
      obtain ⟨-, -, hm, y, hy, -, hyr⟩ := h
      rw [append_empty, hx] at hy
      obtain rfl := Host.Outcome.next.inj hy
      exact absurd (by simpa using hyr.symm.trans hr) hm
  · obtain ⟨-, -, hd⟩ := ht
    exact ⟨hd, by simp [hne]⟩

/-- A run of feeds and POLLs with one POLL behind it, from a state that awaits the result `o`: every POLL hands over one
result, and of these only `o` is not NOT_ENOUGH. -/
theorem stepMany_of_awaits (pre : List Input) {s : State} {o : Option PollResult} (h : Awaits (fedBytes pre) s o)
    (hpre : ∀ inp ∈ pre, inp.isFeedOrPoll = true) (hin : s.inputs = pre ++ [pollReq]) :
    ∃ t rs, stepMany (pre.length + 1) s = .next t ∧ Drained t ∧ t.inputs = [] ∧ t.results = s.results ++ rs ∧
      rs.length = (pre.filter (· == pollReq)).length + 1 ∧ rs.filter (· != nothing .notEnough) = o.toList := by
  induction pre generalizing s o with
  | nil =>
    obtain ⟨t, r, hx, hr, hti, hd, hf⟩ := (h.withInputs []).last_poll
    exact ⟨t, [r], stepMany_of_step ((step_poll hin).trans hx) 0, hd, hti, hr, rfl, hf⟩
  | cons inp pre ih =>
    rw [List.cons_append] at hin
    have hpre' : ∀ inp ∈ pre, inp.isFeedOrPoll = true := fun i hi => hpre i (List.mem_cons_of_mem _ hi)
    rcases feed_or_pollReq (hpre inp List.mem_cons_self) with ⟨bs, rfl⟩ | rfl
    · have hs := (h.withInputs (pre ++ [pollReq])).feed
      obtain ⟨t, rs, hx, hd, hti, hr, hlen, hf⟩ := ih hs hpre' rfl
      refine ⟨t, rs, ?_, hd, hti, hr, by simpa [pollReq] using hlen, hf⟩
      exact (stepMany_of_step (step_feed hin) _).trans hx
    · obtain ⟨u, r, hu, hur, hui, hcase⟩ := (h.withInputs (pre ++ [pollReq])).poll
      have hrun (t : State) (hx : stepMany (pre.length + 1) u = .next t) :
          stepMany ((pollReq :: pre).length + 1) s = .next t :=
        (stepMany_of_step ((step_poll hin).trans hu) _).trans hx
      rcases hcase with ⟨hr, hs⟩ | ⟨hr, rfl, hs⟩
      all_goals
        obtain ⟨t, rs, hx, hd, hti, htr, hlen, hf⟩ := ih hs hpre' hui
        refine ⟨t, r :: rs, hrun t hx, hd, hti, by simp [htr, hur], by simpa using hlen, ?_⟩
        simpa [hr] using hf

/-- Settles O34: the idle core awaits the message of the frame that is to be fed. -/
theorem chunkingOfAFrameDoesNotMatter : Obligations.ChunkingOfAFrameDoesNotMatter := by
  intro s c h pre hst hn hq ha hpre hfed hin
  have hok : needOk s = true := (needOk_iff s).mpr (by rw [hst, hn]; rfl)
  have hqueue : (append (mkFrame 0x01#8 c) s).rxq = mkFrame 0x01#8 c ++ [] := by simp [hq]
  obtain ⟨y, hy, hyst, hyn, hyq, hyr⟩ :=
    pollWith_mkFrame hardware (s := append (mkFrame 0x01#8 c) s) hst hn ha hqueue (by omega)
      (lookup_hardware_of_eq rfl) (dif_pos h)
  have hs : Awaits (fedBytes pre) s (some (.message 0x01#8 (decodePose c h))) :=
    ⟨ha, hok, by simp [nothing], y, by rw [hfed, hy], ⟨hyst, hyn, hyq⟩, hyr⟩
  obtain ⟨t, rs, hx, ⟨htst, htn, htq⟩, hti, hr, hlen, hf⟩ := stepMany_of_awaits pre hs hpre hin
  exact ⟨t, rs, hx, htst, htn, htq, hti, hr, hlen, hf⟩

end Sys2Proof.Machine
end
